-- ==== Sys2Proof/Word.lean ====
section
/-! DEFINITION. The word types of B32T. Every value is an unsigned integer of its width (R7); a field
`v[hi:lo]` is `BitVec.extractLsb' lo (hi + 1 - lo) v`, concatenation `++` has its left side more
significant, and `zext_N`, `trunc_N` are `BitVec.setWidth N` (R8). Nothing is sign-extended (R8). -/

namespace Sys2Proof

/-- A command word, `CMD_W` = 16 bits (R6, R51). -/
abbrev Cmd := BitVec 16

/-- A byte: a character input (`CHAR_W` = 8, R6) or a digest byte (R40). -/
abbrev Byte := BitVec 8

/-- A 5-bit group, the value 0..31 of one alphabet character (R12). -/
abbrev Quintet := BitVec 5

/-- A response data word, `RSP_W` = 32 bits (R6, R58). -/
abbrev Data := BitVec 32

/-- One bit as a word of width 1. -/
def bit (b : Bool) : BitVec 1 := BitVec.ofBool b

end Sys2Proof
end

