-- ==== Sys2Proof/Config.lean ====
section
/-! DEFINITION. What the implementation fixes (R6): the algorithm selector and its digest lengths.
B32T leaves no value undefined (93_implementation_defined.md, section 1), so there is no free constant
here; the one open parameter, `CMD_LATENCY` (R101), is free edge by edge in `Edge.done`
(notes/assumptions/2.md). -/

namespace Sys2Proof

/-- The algorithm selector (R26, R52): `a = 0` SHA-1, `a = 1` MD5. It selects only the digest length. -/
inductive Alg where
  | sha1
  | md5
deriving DecidableEq, Repr

/-- `DBUF` depth, the longer of the two digest lengths (R6). -/
abbrev Config.dbufDepth : Nat := 20

/-- `L(ALG)`: a SHA-1 digest is 20 bytes, an MD5 digest 16 (R6, R26). -/
def Config.digestLen : Alg → Nat
  | .sha1 => 20
  | .md5 => 16

end Sys2Proof
end

