-- ==== Sys2Proof/Syntax.lean ====
section
/-! DEFINITION. The commands of B32T, one constructor per row of the opcode table (R53). -/

namespace Sys2Proof

/-- A command with its operand (R52). Every value of every field is a legal operand. -/
inductive Instr where
  /-- `NOP` (R81). -/
  | nop
  /-- `DEC_START` (R62). -/
  | decStart
  /-- `DEC_CHAR c` (R63). -/
  | decChar (c : Byte)
  /-- `DEC_END` (R65). -/
  | decEnd
  /-- `TRU_START a` (R70). -/
  | truStart (a : Alg)
  /-- `TRU_BYTE b` (R71). -/
  | truByte (b : Byte)
  /-- `TRU_EXEC` (R72). -/
  | truExec
  /-- `RD.STATUS` (R77). -/
  | rdStatus
  /-- `RD.RESULT` (R78). -/
  | rdResult
  /-- `RD.OUTCNT` (R79). -/
  | rdOutcnt
  /-- `RD.ACC` (R80). -/
  | rdAcc
deriving DecidableEq, Repr

end Sys2Proof
end

