-- ==== Sys2Proof/WellFormed.lean ====
section
/-! DEFINITION. Well-formedness. A command's fields have the exact widths of R52, so every `Instr` is
well formed; the one check the spec asks for stands on the pseudo-instruction `TRU.DIGEST` (R60). -/

namespace Sys2Proof

/-- Whether a command's operands are in range (R52): the types already say so, constructor by
constructor. -/
def Instr.wf : Instr → Bool
  | .nop => true
  | .decStart => true
  | .decChar _ => true
  | .decEnd => true
  | .truStart _ => true
  | .truByte _ => true
  | .truExec => true
  | .rdStatus => true
  | .rdResult => true
  | .rdOutcnt => true
  | .rdAcc => true

/-- Whether `TRU.DIGEST a, ds` may be assembled: "the assembler refuses a byte count other than 20"
(SHA-1) or 16 (MD5) (R60). -/
def digestFits (a : Alg) (ds : List Byte) : Bool := ds.length == Config.digestLen a

end Sys2Proof
end

