-- ==== Sys2Proof/Decode.lean ====
section
/-! DEFINITION. Decoding and encoding of command words (R51 to R57), and the opcode table of R53. A
command is one parallel 16-bit word, never a sequence of bytes (R43, R57), so no byte order enters. -/

namespace Sys2Proof

/-- Why a word is reserved (R55): its `OP` is 0x8..0xF, or its `SUB` or its `DATA` is not one its
`OP` admits. All three execute as `ILLEGAL` (R84). -/
inductive Reserved where
  | opcode
  | sub
  | data
deriving DecidableEq, Repr

/-- The field `OP = cmd[15:12]` (R51). -/
def opField (w : Cmd) : BitVec 4 := w.extractLsb' 12 4

/-- The field `SUB = cmd[11:8]` (R51). -/
def subField (w : Cmd) : BitVec 4 := w.extractLsb' 8 4

/-- The field `DATA = cmd[7:0]` (R51). -/
def dataField (w : Cmd) : Byte := w.extractLsb' 0 8

/-- The algorithm of the operand bit `a` (R52). -/
def algOfBit (a : BitVec 1) : Alg := if a = 0 then .sha1 else .md5

/-- The operand bit of an algorithm (R52). -/
def algBit : Alg → BitVec 1
  | .sha1 => 0
  | .md5 => 1

/-- The `RD` command of the register selector `sel` (R52): 0 STATUS, 1 RESULT, 2 OUTCNT, 3 ACC. -/
def rdOfSel (sel : BitVec 2) : Instr :=
  if sel = 0 then .rdStatus else if sel = 1 then .rdResult else if sel = 2 then .rdOutcnt else .rdAcc

/-- A row of R54 whose `SUB` bits in `subMask` and whole `DATA` must be 0. -/
def withoutData (sub subMask : BitVec 4) (data : Byte) (i : Instr) : Except Reserved Instr :=
  if sub &&& subMask ≠ 0 then .error .sub else if data ≠ 0 then .error .data else .ok i

/-- A row of R54 whose `SUB` must be 0 and whose `DATA` is the operand. -/
def withData (sub : BitVec 4) (i : Instr) : Except Reserved Instr :=
  if sub ≠ 0 then .error .sub else .ok i

/-- The decode function of R54, total on every 16-bit word. -/
def decode (w : Cmd) : Except Reserved Instr :=
  let sub := subField w
  let data := dataField w
  match (opField w).toNat with
  | 0x0 => withoutData sub 0b1111 data .nop
  | 0x1 => withoutData sub 0b1111 data .decStart
  | 0x2 => withData sub (.decChar data)
  | 0x3 => withoutData sub 0b1111 data .decEnd
  | 0x4 => withoutData sub 0b1110 data (.truStart (algOfBit (sub.extractLsb' 0 1)))
  | 0x5 => withData sub (.truByte data)
  | 0x6 => withoutData sub 0b1111 data .truExec
  | 0x7 => withoutData sub 0b1100 data (rdOfSel (sub.extractLsb' 0 2))
  | _ => .error .opcode

/-- A command word from its three fields (R51). -/
def cmdWord (op sub : BitVec 4) (data : Byte) : Cmd := (op ++ sub) ++ data

/-- The word of a command (R53). -/
def encode : Instr → Cmd
  | .nop => cmdWord 0x0 0 0
  | .decStart => cmdWord 0x1 0 0
  | .decChar c => cmdWord 0x2 0 c
  | .decEnd => cmdWord 0x3 0 0
  | .truStart a => cmdWord 0x4 (0#3 ++ algBit a) 0
  | .truByte b => cmdWord 0x5 0 b
  | .truExec => cmdWord 0x6 0 0
  | .rdStatus => cmdWord 0x7 0 0
  | .rdResult => cmdWord 0x7 1 0
  | .rdOutcnt => cmdWord 0x7 2 0
  | .rdAcc => cmdWord 0x7 3 0

/-- A row of the opcode table of R53: a word `w` selects it when `w & mask = pattern`. -/
structure Row where
  mnemonic : String
  pattern : Cmd
  mask : Cmd
deriving DecidableEq, Repr

/-- Whether a word selects a row (R53). -/
def Row.selects (r : Row) (w : Cmd) : Bool := w &&& r.mask == r.pattern

/-- The row of R53 that a command stands in. -/
def rowOf : Instr → Row
  | .nop => ⟨"NOP", 0x0000, 0xFFFF⟩
  | .decStart => ⟨"DEC_START", 0x1000, 0xFFFF⟩
  | .decChar _ => ⟨"DEC_CHAR", 0x2000, 0xFF00⟩
  | .decEnd => ⟨"DEC_END", 0x3000, 0xFFFF⟩
  | .truStart _ => ⟨"TRU_START", 0x4000, 0xFEFF⟩
  | .truByte _ => ⟨"TRU_BYTE", 0x5000, 0xFF00⟩
  | .truExec => ⟨"TRU_EXEC", 0x6000, 0xFFFF⟩
  | .rdStatus => ⟨"RD.STATUS", 0x7000, 0xFFFF⟩
  | .rdResult => ⟨"RD.RESULT", 0x7100, 0xFFFF⟩
  | .rdOutcnt => ⟨"RD.OUTCNT", 0x7200, 0xFFFF⟩
  | .rdAcc => ⟨"RD.ACC", 0x7300, 0xFFFF⟩

/-- The opcode table of R53, in its order. -/
def opcodeTable : List Row :=
  [rowOf .nop, rowOf .decStart, rowOf (.decChar 0), rowOf .decEnd, rowOf (.truStart .sha1),
   rowOf (.truByte 0), rowOf .truExec, rowOf .rdStatus, rowOf .rdResult, rowOf .rdOutcnt, rowOf .rdAcc]

/-- The command the decoder reads from the word `w` of `nbits` bits; every bit above `nbits` is 0. -/
def decodeTableWord (nbits w : Nat) : Option Instr :=
  match decode (BitVec.ofNat 16 (w % 2 ^ nbits)) with
  | .ok i => some i
  | .error _ => none

end Sys2Proof
end

