-- ==== Sys2Proof/Machine/State.lean ====
section
/-! DEFINITION. The state of B32T: every register of R22, R25 and R28, the interface state that the
signal level of R20, R95 and R98 needs, and the clock edges still to come. Plain data. -/

namespace Sys2Proof.Machine

/-- `DSTATE`, the decode transaction state (R22, R23). The code 3 is never reached (R22), so there is
no name for it (DEDUCED, notes/assumptions/6.md, unsafe). -/
inductive DState where
  /-- no decode transaction is open -/
  | idle
  /-- a transaction is open and has met only alphabet characters -/
  | active
  /-- a transaction is open and has met a non-alphabet byte -/
  | error
deriving DecidableEq, Repr

/-- The registers of the decoder unit DEC (R22). -/
structure DecRegs where
  dstate : DState
  acc : BitVec 7
  nbits : BitVec 3
  outcnt : BitVec 32
  errchar : Byte
  derr : Bool
deriving DecidableEq, Repr

/-- The registers of the truncation unit TRU (R25). -/
structure TruRegs where
  tload : Bool
  alg : Alg
  dcnt : BitVec 5
  dbuf : Vector Byte Config.dbufDepth
  result : Data
  offset : BitVec 4
  wrap : Bool
  tvalid : Bool
deriving DecidableEq, Repr

/-- The response code of a command (R83). -/
inductive Code where
  | ok
  | decErr
  | stateErr
  | illegal
deriving DecidableEq, Repr

/-- A response: `rsp_code` and `rsp_data` (R58). -/
structure Response where
  code : Code
  data : Data
deriving DecidableEq, Repr

/-- Where the command/response handshake stands (R95, R98). -/
inductive Port where
  /-- the last edge had `rst = 1`: `cmd_ready = 0`, `rsp_valid = 0` -/
  | inReset
  /-- `cmd_ready = 1`: no command in progress, no response waiting -/
  | ready
  /-- a command was accepted and its response is not valid yet -/
  | busy (r : Response)
  /-- `rsp_valid = 1` with the response on `rsp_code` and `rsp_data` -/
  | responding (r : Response)
  /-- the response was taken and `cmd_ready` has not risen yet ("the same edge or later", R98) -/
  | recovering
deriving DecidableEq, Repr

/-- One rising edge of `clk` still to come: the input pins of R20, and `done`, which is no pin but
the block's own open choice at that edge (DESIGN CHOICE, notes/assumptions/2.md, safe): whether the
response becomes valid (R101) or `cmd_ready` rises again (R98) at this edge. -/
structure Edge where
  rst : Bool
  cmdValid : Bool
  cmd : Cmd
  rspReady : Bool
  done : Bool
deriving DecidableEq, Repr

/-- The machine. -/
structure State where
  /-- the decoder unit (R22) -/
  dec : DecRegs
  /-- the truncation unit (R25) -/
  tru : TruRegs
  /-- the sticky flag `ILL` (R28) -/
  ill : Bool
  /-- the handshake of the one port (R20, R33, R98) -/
  port : Port
  /-- the MODEL's own field: the rising edges still to come, the next one first
  (DESIGN CHOICE, notes/assumptions/1.md, safe) -/
  edges : List Edge
deriving DecidableEq, Repr

/-- Why the machine stops. -/
inductive Fault where
  /-- Raised by `TRU_BYTE` when it would store to `DBUF[i]` with `i` 20 or more, which R40 says does not
  exist and R27 says is never reached (DESIGN CHOICE, notes/assumptions/9.md). Safe. -/
  | dbufIndex (i : Nat)
deriving DecidableEq, Repr

/-- Why a command has no meaning. -/
inductive Refusal where
  /-- Raised by an arm of `exec` whose instruction is not modelled yet; no arm raises it. Safe. -/
  | notModelled (mnemonic : String)
deriving DecidableEq, Repr

/-- DEC after reset (R36). -/
def DecRegs.reset : DecRegs :=
  { dstate := .idle, acc := 0, nbits := 0, outcnt := 0, errchar := 0, derr := false }

/-- TRU after reset (R36). -/
def TruRegs.reset : TruRegs :=
  { tload := false, alg := .sha1, dcnt := 0, dbuf := Vector.replicate Config.dbufDepth 0, result := 0,
    offset := 0, wrap := false, tvalid := false }

/-- The machine right after reset (R36): every register at its reset value, `cmd_ready = 1` as in the
first cycle after `rst` is deasserted, `rsp_valid = 0` (notes/assumptions/4.md). No edge is listed
(DESIGN CHOICE, notes/assumptions/3.md, safe). -/
def State.reset : State :=
  { dec := DecRegs.reset, tru := TruRegs.reset, ill := false, port := .ready, edges := [] }

end Sys2Proof.Machine
end

