-- ==== Sys2Proof/Machine/Ops.lean ====
section
/-! DEFINITION. The operations every command is written with: reading the port's pins, responding, the
three kinds of error response (the block has no trap, R89: an error is the response of its command),
the digest buffer, and reset. -/

namespace Sys2Proof.Machine

/-- The output pin `cmd_ready` (R20, R98). -/
def State.cmdReady (s : State) : Bool :=
  match s.port with
  | .ready => true
  | .inReset => false
  | .busy _ => false
  | .responding _ => false
  | .recovering => false

/-- The output pins `rsp_code` and `rsp_data` while `rsp_valid = 1`; while it is 0 the spec gives them
no value and neither does the model (DESIGN CHOICE, notes/assumptions/5.md, safe). -/
def State.rspPins (s : State) : Option Response :=
  match s.port with
  | .responding r => some r
  | .ready => none
  | .inReset => none
  | .busy _ => none
  | .recovering => none

/-- The output pin `rsp_valid` (R20, R98). -/
def State.rspValid (s : State) : Bool := s.rspPins.isSome

/-- `respond(code, data)` (R9): the one response of the command being executed, computed and not yet
valid on the pins (R98). -/
def respond (code : Code) (data : Data) (s : State) : State :=
  { s with port := .busy { code := code, data := data } }

/-- `STATE_ERR`: nothing changes, and the data word is 0 (R85). -/
def respondStateErr (s : State) : State := respond .stateErr 0 s

/-- `DEC_ERR`: the data word is the offending byte (R86). -/
def respondDecErr (c : Byte) (s : State) : State := respond .decErr (c.setWidth 32) s

/-- What a reserved word does (R84): `ILL` is set, the word is echoed, nothing else changes. -/
def illegal (w : Cmd) (s : State) : State :=
  respond .illegal (w.setWidth 32) { s with ill := true }

/-- `DBUF[i]` (R9, R40). -/
def TruRegs.digestByte (t : TruRegs) (i : Fin Config.dbufDepth) : Byte := t.dbuf[i]

/-- `DBUF[i] <- b` (R9, R40); there is no `DBUF[i]` for `i` of 20 or more. -/
def TruRegs.storeByte (t : TruRegs) (i : Nat) (b : Byte) : Option TruRegs :=
  if h : i < Config.dbufDepth then some { t with dbuf := t.dbuf.set i b h } else none

/-- A rising edge with `rst = 1` (R95, R96): every register takes its reset value, the response in
flight is lost, `cmd_ready` and `rsp_valid` are 0. The edges still to come are the host's. -/
def applyReset (s : State) : State := { State.reset with port := .inReset, edges := s.edges }

end Sys2Proof.Machine
end

