-- ==== Sys2Proof/Machine/Operands.lean ====
section
/-! DEFINITION. The arithmetic of the two units: the alphabet (R61), the 5-to-8 step (R63) and the
truncation window (R73 to R75). -/

namespace Sys2Proof.Machine

/-- The alphabet function `alpha(c)` (R61); the bytes are the ASCII values of R11. -/
def alpha (c : Byte) : Option Quintet :=
  if 0x41 ≤ c ∧ c ≤ 0x5A then some ((c - 0x41).setWidth 5)
  else if 0x61 ≤ c ∧ c ≤ 0x7A then some ((c - 0x61).setWidth 5)
  else if 0x32 ≤ c ∧ c ≤ 0x37 then some ((c - 0x32 + 26).setWidth 5)
  else none

/-- `t = (zext_12(ACC) << 5) | zext_12(v)` (R63). -/
def shiftIn (acc : BitVec 7) (v : Quintet) : BitVec 12 := (acc.setWidth 12 <<< 5) ||| v.setWidth 12

/-- `t[n-1 : n-8]`, the oldest 8 of the `n` residual bits (R63). -/
def oldestByte (t : BitVec 12) (n : Nat) : Byte := t.extractLsb' (n - 8) 8

/-- `zext_7(t[r-1 : 0])`, the `r` bits left over; 0 when `r = 0` (R7, R63). -/
def residue (t : BitVec 12) (r : Nat) : BitVec 7 := (t.extractLsb' 0 r).setWidth 7

/-- `zext_32(E ++ byte)` with `E = 1`: the data word that carries an emitted byte (R58, R63). -/
def emitWord (b : Byte) : Data := (1#1 ++ b).setWidth 32

/-- A digest is never longer than the buffer (R6). -/
theorem digestLen_le_depth (a : Alg) : Config.digestLen a ≤ Config.dbufDepth := by
  cases a <;> decide

theorem digestLen_pos (a : Alg) : 0 < Config.digestLen a := by
  cases a <;> decide

/-- The index `k mod L(ALG)` of a digest byte (R74). -/
def digestIndex (a : Alg) (k : Nat) : Fin Config.dbufDepth :=
  ⟨k % Config.digestLen a, Nat.lt_of_lt_of_le (Nat.mod_lt k (digestLen_pos a)) (digestLen_le_depth a)⟩

/-- The offset `DBUF[L(ALG)-1][3:0]` (R73). -/
def truncOffset (t : TruRegs) : BitVec 4 :=
  (t.digestByte (digestIndex t.alg (Config.digestLen t.alg - 1))).extractLsb' 0 4

/-- The window byte `p_i = DBUF[(off + i) mod L(ALG)]` (R74). -/
def windowByte (t : TruRegs) (off : BitVec 4) (i : Nat) : Byte :=
  t.digestByte (digestIndex t.alg (off.toNat + i))

/-- `val = (p_0 & 0x7F) ++ p_1 ++ p_2 ++ p_3` (R72, R75). -/
def truncValue (t : TruRegs) (off : BitVec 4) : Data :=
  (windowByte t off 0 &&& 0x7F) ++ windowByte t off 1 ++ windowByte t off 2 ++ windowByte t off 3

end Sys2Proof.Machine
end

