-- ==== Sys2Proof/Machine/Flags.lean ====
section
/-! DEFINITION. The flag computations and the readback words (R29, R30, R31). -/

namespace Sys2Proof.Machine

/-- The 2-bit code of `DSTATE` (R22). -/
def dstateCode : DState → BitVec 2
  | .idle => 0
  | .active => 1
  | .error => 2

/-- The bit of `ALG` (R25): 0 SHA-1, 1 MD5. -/
def algFlag : Alg → BitVec 1
  | .sha1 => 0
  | .md5 => 1

/-- The 2-bit value of `rsp_code` (R83). -/
def codeBits : Code → BitVec 2
  | .ok => 0b00
  | .decErr => 0b01
  | .stateErr => 0b10
  | .illegal => 0b11

/-- The output pins `rsp_code` while `rsp_valid = 1` (R20, R83). -/
def State.rspCode (s : State) : Option (BitVec 2) := s.rspPins.map fun r => codeBits r.code

/-- The output pins `rsp_data` while `rsp_valid = 1` (R20). -/
def State.rspData (s : State) : Option Data := s.rspPins.map fun r => r.data

/-- The new `WRAP`: `off > L(ALG) - 4` (R72, R76). -/
def wraps (a : Alg) (off : BitVec 4) : Bool := decide (Config.digestLen a - 4 < off.toNat)

/-- `DCNT = L(ALG)`: the digest is complete (R71, R72). -/
def digestComplete (t : TruRegs) : Bool := t.dcnt.toNat == Config.digestLen t.alg

/-- The STATUS word (R29). -/
def statusWord (s : State) : Data :=
  0#2 ++ bit s.ill ++ bit s.tru.tvalid ++ s.tru.offset ++ bit s.tru.wrap ++ s.tru.dcnt
    ++ algFlag s.tru.alg ++ bit s.tru.tload ++ s.dec.errchar ++ 0#1 ++ s.dec.nbits ++ 0#1
    ++ bit s.dec.derr ++ dstateCode s.dec.dstate

/-- The ACC word `zext_24(NBITS) ++ 0b0 ++ ACC` (R30). -/
def accWord (d : DecRegs) : Data := d.nbits.setWidth 24 ++ 0#1 ++ d.acc

end Sys2Proof.Machine
end

