-- ==== Sys2Proof/Machine/Control.lean ====
section
/-! DEFINITION. The control and readback family: `NOP` and the four `RD` commands (R77 to R81). None of
them changes a register (R47). -/

namespace Sys2Proof.Machine

/-- `NOP` (R81). -/
def execNop (s : State) : Host.Outcome State Fault Refusal := .next (respond .ok 0 s)

/-- `RD.STATUS` (R77). -/
def execRdStatus (s : State) : Host.Outcome State Fault Refusal := .next (respond .ok (statusWord s) s)

/-- `RD.RESULT` (R78). -/
def execRdResult (s : State) : Host.Outcome State Fault Refusal := .next (respond .ok s.tru.result s)

/-- `RD.OUTCNT` (R79). -/
def execRdOutcnt (s : State) : Host.Outcome State Fault Refusal := .next (respond .ok s.dec.outcnt s)

/-- `RD.ACC` (R80). -/
def execRdAcc (s : State) : Host.Outcome State Fault Refusal := .next (respond .ok (accWord s.dec) s)

end Sys2Proof.Machine
end

