-- ==== Sys2Proof/Machine/Dec.lean ====
section
/-! DEFINITION. The decoder family: `DEC_START`, `DEC_CHAR`, `DEC_END` (R62, R63, R65). -/

namespace Sys2Proof.Machine

/-- `DEC_START` (R62): legal in every `DSTATE`. -/
def execDecStart (s : State) : Host.Outcome State Fault Refusal :=
  .next (respond .ok 0
    { s with dec := { dstate := .active, acc := 0, nbits := 0, outcnt := 0, errchar := 0, derr := false } })

/-- The 5-to-8 step of an alphabet character of value `v` in `ACTIVE` (R63). -/
def feedGroup (v : Quintet) (s : State) : State :=
  let t := shiftIn s.dec.acc v
  let n := s.dec.nbits.toNat + 5
  if 8 ≤ n then
    respond .ok (emitWord (oldestByte t n))
      { s with dec := { s.dec with acc := residue t (n - 8), nbits := BitVec.ofNat 3 (n - 8),
                                   outcnt := s.dec.outcnt + 1 } }
  else
    respond .ok 0 { s with dec := { s.dec with acc := t.setWidth 7, nbits := BitVec.ofNat 3 n } }

/-- A non-alphabet byte in `ACTIVE` (R63): the transaction fails and latches the byte. -/
def failDecode (c : Byte) (s : State) : State :=
  respondDecErr c
    { s with dec := { s.dec with dstate := .error, errchar := c, derr := true, acc := 0, nbits := 0 } }

/-- `DEC_CHAR c` (R63, R87). -/
def execDecChar (c : Byte) (s : State) : Host.Outcome State Fault Refusal :=
  match s.dec.dstate with
  | .idle => .next (respondStateErr s)
  | .error => .next (respondDecErr s.dec.errchar s)
  | .active =>
    match alpha c with
    | none => .next (failDecode c s)
    | some v => .next (feedGroup v s)

/-- `DEC_END` (R65): the trailing bits are dropped. -/
def execDecEnd (s : State) : Host.Outcome State Fault Refusal :=
  match s.dec.dstate with
  | .idle => .next (respondStateErr s)
  | .error => .next (respondDecErr s.dec.errchar { s with dec := { s.dec with dstate := .idle } })
  | .active =>
    .next (respond .ok s.dec.outcnt { s with dec := { s.dec with acc := 0, nbits := 0, dstate := .idle } })

end Sys2Proof.Machine
end

