-- ==== Sys2Proof/Machine/Tru.lean ====
section
/-! DEFINITION. The truncation family: `TRU_START`, `TRU_BYTE`, `TRU_EXEC` (R70, R71, R72). -/

namespace Sys2Proof.Machine

/-- `TRU_START a` (R70): `DBUF` is not cleared. -/
def execTruStart (a : Alg) (s : State) : Host.Outcome State Fault Refusal :=
  .next (respond .ok 0
    { s with tru := { s.tru with alg := a, tload := true, dcnt := 0, result := 0, offset := 0,
                                 wrap := false, tvalid := false } })

/-- `TRU_BYTE b` (R71). The store to a `DBUF` byte that does not exist is the model's one fault
(notes/assumptions/9.md). -/
def execTruByte (b : Byte) (s : State) : Host.Outcome State Fault Refusal :=
  if s.tru.tload = false then .next (respondStateErr s)
  else if digestComplete s.tru then .next (respondStateErr s)
  else
    match s.tru.storeByte s.tru.dcnt.toNat b with
    | none => .fault (.dbufIndex s.tru.dcnt.toNat)
    | some t =>
      .next (respond .ok ((t.dcnt + 1).setWidth 32) { s with tru := { t with dcnt := t.dcnt + 1 } })

/-- `TRU_EXEC` (R72). -/
def execTruExec (s : State) : Host.Outcome State Fault Refusal :=
  if s.tru.tload = false ∨ digestComplete s.tru = false then .next (respondStateErr s)
  else
    let off := truncOffset s.tru
    let val := truncValue s.tru off
    .next (respond .ok val
      { s with tru := { s.tru with result := val, offset := off, wrap := wraps s.tru.alg off,
                                   tvalid := true, tload := false } })

end Sys2Proof.Machine
end

