-- ==== Sys2Proof/Machine/Dispatch.lean ====
section
/-! DEFINITION. What an accepted command does: one arm per constructor of Instr, each the one call of
its meaning. -/

namespace Sys2Proof.Machine

def exec (i : Instr) (s : State) : Host.Outcome State Fault Refusal :=
  match i with
  | .nop => Sys2Proof.Machine.execNop s
  | .decStart => Sys2Proof.Machine.execDecStart s
  | .decChar c => Sys2Proof.Machine.execDecChar c s
  | .decEnd => Sys2Proof.Machine.execDecEnd s
  | .truStart a => Sys2Proof.Machine.execTruStart a s
  | .truByte b => Sys2Proof.Machine.execTruByte b s
  | .truExec => Sys2Proof.Machine.execTruExec s
  | .rdStatus => Sys2Proof.Machine.execRdStatus s
  | .rdResult => Sys2Proof.Machine.execRdResult s
  | .rdOutcnt => Sys2Proof.Machine.execRdOutcnt s
  | .rdAcc => Sys2Proof.Machine.execRdAcc s

end Sys2Proof.Machine
end

