-- ==== Sys2Proof/Machine/Handshake.lean ====
section
/-! DEFINITION. The command/response handshake at the signal level (R20, R95, R96, R98): what one
rising edge of the clock does. -/

namespace Sys2Proof.Machine

/-- An edge at which the host offers the word `w` (R20). -/
def offer (w : Cmd) : Edge :=
  { rst := false, cmdValid := true, cmd := w, rspReady := false, done := false }

/-- An edge at which the host does nothing and the block does not finish. -/
def quiet : Edge := { rst := false, cmdValid := false, cmd := 0, rspReady := false, done := false }

/-- An edge at which the host does nothing and the block finishes what it is doing. -/
def finish : Edge := { quiet with done := true }

/-- An edge with `rst = 1` (R95). -/
def assertReset : Edge := { quiet with rst := true }

/-- A command word is accepted (R20, R54): a legal word runs its command, atomically at this edge (R10,
R46), and a reserved word does what R84 says. -/
def accept (w : Cmd) (s : State) : Host.Outcome State Fault Refusal :=
  match decode w with
  | .ok i => exec i s
  | .error _ => .next (illegal w s)

/-- An edge with `rst = 0`. In `ready` an offered word is accepted; a word offered in any other phase
is not (R98, D28). In `busy` the response becomes valid at an edge the block chooses, at least one after
acceptance (R98, R101). In `responding` the pins stay until the host takes the response, and
`cmd_ready` rises at that edge or later (R98). -/
def handshake (e : Edge) (s : State) : Host.Outcome State Fault Refusal :=
  match s.port with
  | .inReset => .next { s with port := .ready }
  | .ready => if e.cmdValid then accept e.cmd s else .next s
  | .busy r => .next { s with port := if e.done then .responding r else .busy r }
  | .responding r =>
    .next { s with port := if e.rspReady then (if e.done then .ready else .recovering) else .responding r }
  | .recovering => .next { s with port := if e.done then .ready else .recovering }

/-- One rising edge of `clk`; reset wins over everything else (R87, R95, R96). -/
def clockEdge (e : Edge) (s : State) : Host.Outcome State Fault Refusal :=
  if e.rst then .next (applyReset s) else handshake e s

end Sys2Proof.Machine
end

