-- ==== Sys2Proof/Machine/Step.lean ====
section
/-! DEFINITION. One step: the next rising edge of the clock. -/

namespace Sys2Proof.Machine

/-- The next rising edge still to come happens. Where none is listed, no more is known of the host and
nothing changes (R94, R99; DESIGN CHOICE, notes/assumptions/3.md, safe). -/
def step (s : State) : Host.Outcome State Fault Refusal :=
  match s.edges with
  | [] => .next s
  | e :: es => clockEdge e { s with edges := es }

/-- The block as it is about to accept the word `w` at the next edge: `cmd_ready = 1`, and the host
offers the word (notes/assumptions/3.md says how commands come to run). -/
def State.withFetchWord (s : State) (nbits w : Nat) : State :=
  { s with port := .ready, edges := offer (BitVec.ofNat 16 (w % 2 ^ nbits)) :: s.edges }

end Sys2Proof.Machine
end

