-- ==== Sys2Proof/Machine/Script.lean ====
section
/-! DEFINITION. The host's script (R59), the pseudo-instructions (R60), the edges at which a host issues
a command (R98), and the host's rule for the result of a decode (R16, R103). -/

namespace Sys2Proof.Machine

/-! ## Pseudo-instructions (R60) -/

/-- `DEC.STR "s"` over the bytes of `s` (R60). -/
def decStr (cs : List Byte) : List Instr := .decStart :: (cs.map .decChar ++ [.decEnd])

/-- `TRU.DIGEST a, d_0 .. d_(L-1)`; another byte count than `L(a)` is refused (R60). -/
def truDigest (a : Alg) (ds : List Byte) : Option (List Instr) :=
  if digestFits a ds then some (.truStart a :: (ds.map .truByte ++ [.truExec])) else none

/-! ## The script's text (R59). What R59 leaves open of the text is in notes/assumptions/10.md. -/

/-- One action of an assembled script (R59): a command word, or one assertion of `rst`. -/
inductive ScriptAct where
  | word (w : Cmd)
  | reset
deriving DecidableEq, Repr

/-- The words of a list of commands. -/
def wordsOf (is : List Instr) : List ScriptAct := is.map fun i => .word (encode i)

/-- Whether a character is a blank within a line. -/
def isBlank (c : Char) : Bool := c = ' ' || c = '\t'

/-- The text after its leading blanks. -/
def skipBlanks (cs : List Char) : List Char := cs.dropWhile isBlank

/-- Whether nothing follows but blanks and an optional comment from `;` to the end of the line (R59). -/
def endsHere (cs : List Char) : Bool :=
  match skipBlanks cs with
  | [] => true
  | c :: _ => c = ';'

/-- The value of a hexadecimal digit: its place among the sixteen digits, whose letters may be of either
case (R59 writes `0xAB`, R60 `75a48a19`). -/
def hexDigit (c : Char) : Option Nat :=
  ("0123456789abcdef".toList.idxOf? c).or ("0123456789ABCDEF".toList.idxOf? c)

/-- Two hexadecimal digits, the high one first. -/
def hexPair (h l : Char) : Option Byte :=
  match hexDigit h, hexDigit l with
  | some a, some b => some (BitVec.ofNat 8 (a * 16 + b))
  | _, _ => none

/-- A byte literal `0xHH` and what follows it (R59). -/
def byteLiteral : List Char → Option (Byte × List Char)
  | '0' :: 'x' :: h :: l :: rest => (hexPair h l).map fun b => (b, rest)
  | _ => none

/-- The operand of `DEC_CHAR` (R59): a character literal, standing for its ASCII byte (R11), or a byte
literal. -/
def charOperand : List Char → Option (Byte × List Char)
  | '\'' :: c :: '\'' :: rest => if c.toNat < 128 then some (BitVec.ofNat 8 c.toNat, rest) else none
  | cs => byteLiteral cs

/-- The operand of `TRU_START` (R59). -/
def algOperand : List Char → Option (Alg × List Char)
  | 'S' :: 'H' :: 'A' :: '1' :: rest => some (.sha1, rest)
  | 'M' :: 'D' :: '5' :: rest => some (.md5, rest)
  | _ => none

/-- The operand `0xHHHH` of `.word` (R59). -/
def wordOperand : List Char → Option (Cmd × List Char)
  | '0' :: 'x' :: a :: b :: c :: d :: rest =>
    match hexPair a b, hexPair c d with
    | some hi, some lo => some (hi ++ lo, rest)
    | _, _ => none
  | _ => none

/-- The UTF-8 bytes of a character (R6, R11, C1). -/
def utf8Bytes (c : Char) : List Byte := (String.utf8EncodeChar c).map (·.toBitVec)

/-- The bytes of a string literal whose opening quote is already read, and what follows it (R60). -/
def stringOperand : List Char → Option (List Byte × List Char)
  | [] => none
  | '"' :: rest => some ([], rest)
  | c :: rest => (stringOperand rest).map fun p => (utf8Bytes c ++ p.1, p.2)

/-- The digest of `TRU.DIGEST` as byte literals, up to the end of the line or its comment (R60). -/
def digestLiterals : List Char → Option (List Byte)
  | [] => some []
  | ';' :: _ => some []
  | ' ' :: rest => digestLiterals rest
  | '\t' :: rest => digestLiterals rest
  | ',' :: rest => digestLiterals rest
  | '0' :: 'x' :: h :: l :: rest =>
    match hexPair h l, digestLiterals rest with
    | some b, some bs => some (b :: bs)
    | _, _ => none
  | _ => none

/-- The digest of `TRU.DIGEST` as one hex string, `d_0` first (R60). -/
def digestHex : List Char → Option (List Byte)
  | [] => some []
  | [c] => if endsHere [c] then some [] else none
  | h :: l :: rest =>
    if endsHere (h :: l :: rest) then some []
    else
      match hexPair h l, digestHex rest with
      | some b, some bs => some (b :: bs)
      | _, _ => none

/-- The operands of `TRU.DIGEST`: the algorithm, a comma, the digest (R60). -/
def digestOperand (cs : List Char) : Option (Alg × List Byte) :=
  match algOperand cs with
  | none => none
  | some (a, rest) =>
    match skipBlanks rest with
    | ',' :: ds =>
      let body := skipBlanks ds
      let bytes := match body with
        | '0' :: 'x' :: _ => digestLiterals body
        | _ => digestHex body
      bytes.map fun bs => (a, bs)
    | _ => none

/-- A command without operand: nothing may follow it. -/
def bareLine (acts : List ScriptAct) (rest : List Char) : Option (List ScriptAct) :=
  if endsHere rest then some acts else none

/-- A line whose operand was read: nothing may follow it. -/
def operandLine {α : Type} (f : α → List ScriptAct) (p : Option (α × List Char)) :
    Option (List ScriptAct) :=
  match p with
  | some (x, rest) => bareLine (f x) rest
  | none => none

/-- What one line of a script assembles to (R59, R60), or `none` where it is no line of the syntax. -/
def assembleLine (line : List Char) : Option (List ScriptAct) :=
  let body := skipBlanks line
  if endsHere body then some []
  else
    let name := body.takeWhile fun c => !(isBlank c || c = ';')
    let after := body.dropWhile fun c => !(isBlank c || c = ';')
    let arg := skipBlanks after
    if name = "NOP".toList then bareLine (wordsOf [.nop]) after
    else if name = "DEC_START".toList then bareLine (wordsOf [.decStart]) after
    else if name = "DEC_CHAR".toList then operandLine (fun c => wordsOf [.decChar c]) (charOperand arg)
    else if name = "DEC_END".toList then bareLine (wordsOf [.decEnd]) after
    else if name = "TRU_START".toList then operandLine (fun a => wordsOf [.truStart a]) (algOperand arg)
    else if name = "TRU_BYTE".toList then operandLine (fun b => wordsOf [.truByte b]) (byteLiteral arg)
    else if name = "TRU_EXEC".toList then bareLine (wordsOf [.truExec]) after
    else if name = "RD.STATUS".toList then bareLine (wordsOf [.rdStatus]) after
    else if name = "RD.RESULT".toList then bareLine (wordsOf [.rdResult]) after
    else if name = "RD.OUTCNT".toList then bareLine (wordsOf [.rdOutcnt]) after
    else if name = "RD.ACC".toList then bareLine (wordsOf [.rdAcc]) after
    else if name = ".word".toList then operandLine (fun w => [.word w]) (wordOperand arg)
    else if name = "RESET".toList then bareLine [.reset] after
    else if name = "DEC.STR".toList then
      match arg with
      | '"' :: rest => operandLine (fun bs => wordsOf (decStr bs)) (stringOperand rest)
      | _ => none
    else if name = "TRU.DIGEST".toList then
      match digestOperand arg with
      | some (a, ds) => (truDigest a ds).map wordsOf
      | none => none
    else none

/-- The lines of a text. -/
def scriptLines : List Char → List (List Char)
  | [] => [[]]
  | '\n' :: rest => [] :: scriptLines rest
  | c :: rest =>
    match scriptLines rest with
    | l :: ls => (c :: l) :: ls
    | [] => [[c]]

/-- A script, one command per line (R59). -/
def assemble (text : List Char) : Option (List ScriptAct) :=
  ((scriptLines text).mapM assembleLine).map List.flatten

/-! ## The host at the port (R98) -/

/-- The edges after a response was taken until `cmd_ready` is 1 again, `back` edges later (R98). -/
def recoveryEdges : Nat → List Edge
  | 0 => []
  | k + 1 => List.replicate k quiet ++ [finish]

/-- The edges at which a host offers the word `w`, the response becomes valid `wait + 1` edges after
acceptance (`CMD_LATENCY = wait + 1`, R101), the host lets it stand for `hold` edges and takes it, and
`cmd_ready` rises `back` edges after that (R98). -/
def commandEdges (w : Cmd) (wait hold back : Nat) : List Edge :=
  offer w :: (List.replicate wait quiet ++ finish :: (List.replicate hold quiet
    ++ { quiet with rspReady := true, done := decide (back = 0) } :: recoveryEdges back))

/-- The edges of one action of a script: a command as above, or one assertion of `rst` and the edge that
ends it (R59, R95). -/
def actEdges (wait hold back : Nat) : ScriptAct → List Edge
  | .word w => commandEdges w wait hold back
  | .reset => [assertReset, quiet]

/-! ## The host's view at the transaction level (R99) -/

/-- One accepted command and its response (R99). -/
def issue (i : Instr) (s : State) : Option (State × Response) :=
  match exec i s with
  | .next t =>
    match t.port with
    | .busy r => some (t, r)
    | .inReset => none
    | .ready => none
    | .responding _ => none
    | .recovering => none
  | .fault _ => none
  | .refused _ => none

/-- A sequence of accepted commands, in order, and their responses (R48, R99). -/
def issueAll : List Instr → State → Option (State × List Response)
  | [], s => some (s, [])
  | i :: is, s =>
    match issue i s with
    | none => none
    | some (t, r) => (issueAll is t).map fun p => (p.1, r :: p.2)

/-- The byte that a `DEC_CHAR` response carries (R58): `rsp_data[7:0]` where `rsp_data[8]` is 1. -/
def emitted (r : Response) : Option Byte :=
  if r.code = .ok ∧ r.data.getLsbD 8 = true then some (r.data.extractLsb' 0 8) else none

/-- The result of a decode transaction from the responses of its `DEC_CHAR`s and of its `DEC_END` (R16,
R103): the collected bytes if `DEC_END` responds `OK`, the offending byte if any response is
`DEC_ERR`. -/
def hostDecode (chars : List Response) (last : Response) : Option (Except Byte (List Byte)) :=
  match (chars ++ [last]).find? (fun r => r.code = .decErr) with
  | some r => some (.error (r.data.extractLsb' 0 8))
  | none => if last.code = .ok then some (.ok (chars.filterMap emitted)) else none

/-- The host's decode of a byte string (R16): `DEC.STR` and then the rule above. -/
def hostDecodeStr (cs : List Byte) (s : State) : Option (Except Byte (List Byte)) :=
  match issueAll (decStr cs) s with
  | none => none
  | some (_, rs) =>
    match rs.tail.getLast? with
    | none => none
    | some last => hostDecode rs.tail.dropLast last

end Sys2Proof.Machine
end

