-- ==== Sys2Proof/Safety.lean ====
section
/-! DEFINITION. The terms claims are stated in: the invariants of R24 and R27, what a response may be
(R58, R83), the state-error conditions (R85), and the functions the document defines: the base32 decode
of a whole string (R38, R39, R66) and dynamic truncation (R73 to R75). -/

namespace Sys2Proof.Machine

/-! ## Invariants -/

/-- The DEC invariants of R24. -/
abbrev DecInv (d : DecRegs) : Prop :=
  d.acc.toNat < 2 ^ d.nbits.toNat ∧ d.nbits.toNat ≤ 7 ∧ dstateCode d.dstate ≠ 3 ∧
  (d.dstate = .error → d.derr = true ∧ d.acc = 0 ∧ d.nbits = 0) ∧
  (d.dstate = .active → d.derr = false ∧ d.errchar = 0)

/-- The TRU invariants of R27. -/
abbrev TruInv (t : TruRegs) : Prop :=
  t.dcnt.toNat ≤ Config.digestLen t.alg ∧ t.result.getLsbD 31 = false ∧
  (t.tvalid = false → t.result = 0 ∧ t.offset = 0 ∧ t.wrap = false) ∧
  (t.wrap = true → t.alg = .md5 ∧ 13 ≤ t.offset.toNat)

/-- What the prose adds to R24 and R27: no residue outside `ACTIVE` (R80), `ERRCHAR` is 0 where no byte
was refused (R22), and a value is held only of a complete digest that is no longer being loaded (R25,
R72). -/
abbrev UnitInv (s : State) : Prop :=
  (s.dec.dstate ≠ .active → s.dec.acc = 0 ∧ s.dec.nbits = 0) ∧
  (s.dec.derr = false → s.dec.errchar = 0) ∧
  (s.tru.tvalid = true → s.tru.tload = false ∧ s.tru.dcnt.toNat = Config.digestLen s.tru.alg)

/-- What the data word of a response may be, by its code (R58, R83, R84, R85, R86). -/
abbrev ResponseWf (r : Response) : Prop :=
  (r.code = .stateErr → r.data = 0) ∧ (r.code = .decErr → r.data.toNat < 2 ^ 8) ∧
  (r.code = .illegal → r.data.toNat < 2 ^ 16)

/-- The response the port holds, valid or not yet valid. -/
def heldResponse : Port → Option Response
  | .busy r => some r
  | .responding r => some r
  | .inReset => none
  | .ready => none
  | .recovering => none

/-- The port holds only a response a command can give, and an `ILLEGAL` one only with `ILL` set (R28,
R84). -/
abbrev PortInv (s : State) : Prop :=
  ∀ r ∈ heldResponse s.port, ResponseWf r ∧ (r.code = .illegal → s.ill = true)

/-- A state a run can be in, as far as the spec says. -/
abbrev Inv (s : State) : Prop := DecInv s.dec ∧ TruInv s.tru ∧ PortInv s

/-! ## The document's functions -/

/-- The bit stream `v_1 ++ v_2 ++ ... ++ v_n` as a `5n`-bit number (R38). -/
def streamValue (vs : List Quintet) : Nat := vs.foldl (fun acc v => acc * 32 + v.toNat) 0

/-- Output byte `k`: stream bits `8k .. 8k+7` counted from the first bit (R39). -/
def streamByte (vs : List Quintet) (k : Nat) : Byte :=
  BitVec.ofNat 8 (streamValue vs / 2 ^ (5 * vs.length - 8 * (k + 1)))

/-- The whole bytes of the stream, first byte first; a partial last group is dropped (R39, R44). -/
def streamBytes (vs : List Quintet) : List Byte :=
  (List.range (5 * vs.length / 8)).map (streamByte vs)

/-- The response to the alphabet character at position `k` (from 0) of a stream (R64): it carries a byte
exactly when one more whole byte is complete. -/
def emissionResponse (vs : List Quintet) (k : Nat) : Response :=
  if 5 * k / 8 < 5 * (k + 1) / 8 then
    { code := .ok, data := BitVec.ofNat 32 (256 + (streamByte vs (5 * k / 8)).toNat) }
  else { code := .ok, data := 0 }

/-- The responses to the alphabet characters of a stream, in order (R64). -/
def emissionResponses (vs : List Quintet) : List Response :=
  (List.range vs.length).map (emissionResponse vs)

/-- The base32 decode of a byte string (R16, R66): the first byte outside the alphabet, or the bytes of
the stream. -/
def base32 (cs : List Byte) : Except Byte (List Byte) :=
  match cs.find? (fun c => (alpha c).isNone) with
  | some c => .error c
  | none => .ok (streamBytes (cs.filterMap alpha))

/-- Dynamic truncation of a digest (R73, R74, R75), as a number below `2^31`. -/
def dynamicTruncation (ds : List Byte) : Nat :=
  let byte := fun k => (ds.getD (k % ds.length) 0).toNat
  let off := byte (ds.length - 1) % 16
  byte off % 128 * 2 ^ 24 + byte (off + 1) * 2 ^ 16 + byte (off + 2) * 2 ^ 8 + byte (off + 3)

/-- Two bytes are the same letter in either case, or the same byte (R67). -/
abbrev SameButCase (c d : Byte) : Prop :=
  c = d ∨ (0x41 ≤ c ∧ c ≤ 0x5A ∧ d = c + 0x20) ∨ (0x41 ≤ d ∧ d ≤ 0x5A ∧ c = d + 0x20)

/-! ## Conditions of the spec -/

/-- The conditions of `STATE_ERR` (R85). -/
def StateErrCond (i : Instr) (s : State) : Prop :=
  match i with
  | .decChar _ => s.dec.dstate = .idle
  | .decEnd => s.dec.dstate = .idle
  | .truByte _ => s.tru.tload = false ∨ s.tru.dcnt.toNat = Config.digestLen s.tru.alg
  | .truExec => s.tru.tload = false ∨ s.tru.dcnt.toNat ≠ Config.digestLen s.tru.alg
  | .nop => False
  | .decStart => False
  | .truStart _ => False
  | .rdStatus => False
  | .rdResult => False
  | .rdOutcnt => False
  | .rdAcc => False

/-- The conditions of `DEC_ERR` (R63, R65, R87). -/
def DecErrCond (i : Instr) (s : State) : Prop :=
  match i with
  | .decChar c => s.dec.dstate = .error ∨ (s.dec.dstate = .active ∧ alpha c = none)
  | .decEnd => s.dec.dstate = .error
  | .nop => False
  | .decStart => False
  | .truStart _ => False
  | .truByte _ => False
  | .truExec => False
  | .rdStatus => False
  | .rdResult => False
  | .rdOutcnt => False
  | .rdAcc => False

/-- The data word of an `OK` response, command by command (R58): from the state `s` before the command and
`t` after it. -/
def OkData (i : Instr) (s t : State) (d : Data) : Prop :=
  match i with
  | .nop => d = 0
  | .decStart => d = 0
  | .decChar _ => d = 0 ∨ ∃ b : Byte, d.toNat = 2 ^ 8 + b.toNat
  | .decEnd => d = s.dec.outcnt
  | .truStart _ => d = 0
  | .truByte _ => d = t.tru.dcnt.setWidth 32
  | .truExec =>
    d = BitVec.ofNat 32 (dynamicTruncation (s.tru.dbuf.toList.take (Config.digestLen s.tru.alg)))
  | .rdStatus => d = statusWord s
  | .rdResult => d = s.tru.result
  | .rdOutcnt => d = s.dec.outcnt
  | .rdAcc => d = accWord s.dec

/-- The reserved encodings, as R55 lists them by their fields. -/
abbrev ReservedFields (op sub data : Nat) : Prop :=
  8 ≤ op ∨
  (op ∈ [0x0, 0x1, 0x3, 0x6] ∧ (sub ≠ 0 ∨ data ≠ 0)) ∨
  (op ∈ [0x2, 0x5] ∧ sub ≠ 0) ∨
  (op = 0x4 ∧ (2 ≤ sub ∨ data ≠ 0)) ∨
  (op = 0x7 ∧ (4 ≤ sub ∨ data ≠ 0))

/-- A reserved word (R51, R55). -/
abbrev ReservedWord (w : Cmd) : Prop :=
  ReservedFields (w.toNat / 2 ^ 12) (w.toNat / 2 ^ 8 % 2 ^ 4) (w.toNat % 2 ^ 8)

/-! ## A command at the signal level (R98) -/

/-- What the host and the block do at the pins for one command, whatever else the pins say: `a` offers the
word; at `waits` the response is not valid yet and at `f` it becomes so, whether or not the host is ready
already; at `holds` the host does not take it and at `g` it does; `cmd_ready` rises at `g` or at the last
edge of `back` (`done` is the block's open choice, notes/assumptions/2.md). -/
structure CommandTraffic (a f g : Edge) (waits holds back : List Edge) : Prop where
  offered : a.rst = false ∧ a.cmdValid = true
  waiting : ∀ e ∈ waits, e.rst = false ∧ e.done = false
  valid : f.rst = false ∧ f.done = true
  held : ∀ e ∈ holds, e.rst = false ∧ e.rspReady = false
  taken : g.rst = false ∧ g.rspReady = true
  readyAgain : (g.done = true ∧ back = []) ∨
    (g.done = false ∧ ∃ (es : List Edge) (e : Edge), back = es ++ [e] ∧
      (∀ x ∈ es, x.rst = false ∧ x.done = false) ∧ e.rst = false ∧ e.done = true)

end Sys2Proof.Machine
end

