-- ==== Sys2Proof/Certificates/Slice0/Obligations.lean ====
section
/-! DEFINITION. The statements for the provers. Each docstring names the rule of spec/ it formalises; a
clause that rests on a choice of the model names its log entry. -/

open Sys2Proof Sys2Proof.Machine

/-! ## Reset -/

/-- R36: the reset value of every register, `cmd_ready`, `rsp_valid`, and the STATUS word. -/
def Obligations.ResetLeavesEveryRegisterDefined : Prop :=
  State.reset.dec.dstate = .idle ∧ State.reset.dec.acc = 0 ∧ State.reset.dec.nbits = 0 ∧
  State.reset.dec.outcnt = 0 ∧ State.reset.dec.errchar = 0 ∧ State.reset.dec.derr = false ∧
  State.reset.tru.tload = false ∧ State.reset.tru.alg = .sha1 ∧ State.reset.tru.dcnt = 0 ∧
  (∀ i : Fin 20, State.reset.tru.dbuf[i] = 0) ∧ State.reset.tru.result = 0 ∧
  State.reset.tru.offset = 0 ∧ State.reset.tru.wrap = false ∧ State.reset.tru.tvalid = false ∧
  State.reset.ill = false ∧ State.reset.cmdReady = true ∧ State.reset.rspValid = false ∧
  statusWord State.reset = 0x00000000

/-- R24, R27 "and by reset": the invariants hold right after reset, and in reset. -/
def Obligations.ResetMeetsInvariants : Prop :=
  (Inv State.reset ∧ UnitInv State.reset) ∧
  ∀ s : State, Inv (applyReset s) ∧ UnitInv (applyReset s)

/-- R95: an edge with `rst = 1` gives every register its reset value and clears `cmd_ready` and
`rsp_valid`, whatever else the pins say; the first edge with `rst = 0` after it raises `cmd_ready`
(notes/assumptions/4.md, an inference of the model). -/
def Obligations.ResetEdgeThenReady : Prop :=
  ∀ (s : State) (e f : Edge) (es : List Edge), s.edges = e :: f :: es → e.rst = true → f.rst = false →
    ∃ t u : State, step s = .next t ∧ step t = .next u ∧
      t = { State.reset with port := .inReset, edges := f :: es } ∧
      t.cmdReady = false ∧ t.rspValid = false ∧
      u = { State.reset with edges := es } ∧ u.cmdReady = true ∧ u.rspValid = false

/-- R96: a reset after a command was accepted and before its response was taken ends in the reset state
whatever the command was and wrote, and its response is lost. Until the response is valid (`waits`, and the
first edge of `rest`) the host may be ready or not; from then on it does not take it. -/
def Obligations.ResetWinsOverCommand : Prop :=
  ∀ (s : State) (a e : Edge) (waits rest es : List Edge), s.port = .ready →
    s.edges = a :: (waits ++ (rest ++ e :: es)) → a.rst = false → a.cmdValid = true →
    (∀ f ∈ waits, f.rst = false ∧ f.done = false) → (∀ f ∈ rest, f.rst = false) →
    (∀ f ∈ rest.tail, f.rspReady = false) → TruInv s.tru → e.rst = true →
      ∃ u t : State, core.run (waits.length + rest.length + 1) s = .next u ∧
        (∃ r, heldResponse u.port = some r) ∧
        step u = .next t ∧ t = { State.reset with port := .inReset, edges := es } ∧
        heldResponse t.port = none

/-! ## Encoding -/

/-- Words written out from R53 and 95_test_vectors.md decode to the commands they stand for. -/
def Obligations.SpecWordsDecode : Prop :=
  decode 0x0000 = .ok .nop ∧ decode 0x1000 = .ok .decStart ∧ decode 0x204D = .ok (.decChar 0x4D) ∧
  decode 0x3000 = .ok .decEnd ∧ decode 0x4000 = .ok (.truStart .sha1) ∧
  decode 0x4100 = .ok (.truStart .md5) ∧ decode 0x5075 = .ok (.truByte 0x75) ∧
  decode 0x6000 = .ok .truExec ∧ decode 0x7000 = .ok .rdStatus ∧ decode 0x7100 = .ok .rdResult ∧
  decode 0x7200 = .ok .rdOutcnt ∧ decode 0x7300 = .ok .rdAcc

/-- R53: the table, its operand fields, that it selects what the decoder reads, that no word selects two
rows, and that 522 of the 65536 words are legal. -/
def Obligations.OpcodeTableIsTheDecoder : Prop :=
  opcodeTable =
    [⟨"NOP", 0x0000, 0xFFFF⟩, ⟨"DEC_START", 0x1000, 0xFFFF⟩, ⟨"DEC_CHAR", 0x2000, 0xFF00⟩,
     ⟨"DEC_END", 0x3000, 0xFFFF⟩, ⟨"TRU_START", 0x4000, 0xFEFF⟩, ⟨"TRU_BYTE", 0x5000, 0xFF00⟩,
     ⟨"TRU_EXEC", 0x6000, 0xFFFF⟩, ⟨"RD.STATUS", 0x7000, 0xFFFF⟩, ⟨"RD.RESULT", 0x7100, 0xFFFF⟩,
     ⟨"RD.OUTCNT", 0x7200, 0xFFFF⟩, ⟨"RD.ACC", 0x7300, 0xFFFF⟩] ∧
  (∀ b : Byte, decode (0x2000 ||| b.setWidth 16) = .ok (.decChar b) ∧
    decode (0x5000 ||| b.setWidth 16) = .ok (.truByte b)) ∧
  (∀ a : BitVec 1, decode (0x4000 ||| a.setWidth 16 <<< 8) =
    .ok (.truStart (if a = 0 then .sha1 else .md5))) ∧
  (∀ (w : Cmd) (i : Instr), decode w = .ok i → rowOf i ∈ opcodeTable ∧ (rowOf i).selects w = true) ∧
  (∀ (w : Cmd) (r : Row), r ∈ opcodeTable → r.selects w = true → ∃ i, decode w = .ok i ∧ rowOf i = r) ∧
  (∀ (w : Cmd) (r q : Row), r ∈ opcodeTable → q ∈ opcodeTable → r.selects w = true →
    q.selects w = true → r = q) ∧
  (List.range 65536).countP (fun n => (decodeTableWord 16 n).isSome) = 522

/-- R55: the reserved words are exactly the listed ones, 65014 of them, and each, accepted in any state,
has the one behaviour of R84. -/
def Obligations.ReservedWordsExactly : Prop :=
  (∀ w : Cmd, ReservedWord w ↔ ∃ e, decode w = .error e) ∧
  (∀ (w : Cmd) (s : State), ReservedWord w → accept w s =
    .next { s with ill := true, port := .busy { code := .illegal, data := w.setWidth 32 } }) ∧
  (List.range 65536).countP (fun n => (decodeTableWord 16 n).isNone) = 65014

/-- R52, R53, R54: every well-formed command, with every value of its operand, decodes from its word. -/
def Obligations.DecodeEncodeAgree : Prop :=
  ∀ i : Instr, i.wf = true → decode (encode i) = .ok i

/-- R53, R54: a word that decodes is the one word of its command: no bit of it is ignored. -/
def Obligations.EncodeDecodeAgree : Prop :=
  ∀ (w : Cmd) (i : Instr), decode w = .ok i → i.wf = true ∧ encode i = w

/-! ## The step -/

/-- R20, R54, R98: at an edge with `rst = 0`, `cmd_ready = 1` and `cmd_valid = 1` and a legal word, the
step is `exec` of the decoded command with the edge used up; the edge adds nothing else. -/
def Obligations.StepRunsDecodedCommand : Prop :=
  (∀ (s : State) (e : Edge) (es : List Edge) (i : Instr), s.edges = e :: es → e.rst = false →
    e.cmdValid = true → s.cmdReady = true → decode e.cmd = .ok i → i.wf = true →
      step s = exec i { s with edges := es }) ∧
  (∀ (s : State) (i : Instr), i.wf = true →
      step (s.withFetchWord 16 (encode i).toNat) = exec i { s with port := .ready })

/-- R84: a reserved word sets `ILL` and is echoed with `ILLEGAL`; no other register changes. -/
def Obligations.ReservedWordStep : Prop :=
  ∀ (s : State) (e : Edge) (es : List Edge) (x : Reserved), s.edges = e :: es → e.rst = false →
    e.cmdValid = true → s.cmdReady = true → decode e.cmd = .error x →
      step s = .next { s with
        ill := true, edges := es,
        port := .busy { code := .illegal, data := e.cmd.setWidth 32 } }

/-- R33: no command reads the handshake state or the coming edges, and none changes the edges. -/
def Obligations.ExecIgnoresInterface : Prop :=
  ∀ (i : Instr) (s : State) (p : Port) (es : List Edge),
    (∃ t : State, exec i s = .next t ∧ t.edges = s.edges ∧
      exec i { s with port := p, edges := es } = .next { t with edges := es }) ∨
    (∃ f, exec i s = .fault f ∧ exec i { s with port := p, edges := es } = .fault f)

/-! ## The decoder unit -/

/-- R61: `alpha` by byte ranges, and by the characters of the alphabet in the order of their values. -/
def Obligations.AlphabetTable : Prop :=
  (∀ (c : Byte) (v : Quintet), alpha c = some v ↔
    (0x41 ≤ c.toNat ∧ c.toNat ≤ 0x5A ∧ v.toNat = c.toNat - 0x41) ∨
    (0x61 ≤ c.toNat ∧ c.toNat ≤ 0x7A ∧ v.toNat = c.toNat - 0x61) ∨
    (0x32 ≤ c.toNat ∧ c.toNat ≤ 0x37 ∧ v.toNat = c.toNat - 0x32 + 26)) ∧
  (List.range 32).map some = "ABCDEFGHIJKLMNOPQRSTUVWXYZ234567".toList.map
    (fun c => (alpha (BitVec.ofNat 8 c.toNat)).map BitVec.toNat) ∧
  (List.range 26).map some = "abcdefghijklmnopqrstuvwxyz".toList.map
    (fun c => (alpha (BitVec.ofNat 8 c.toNat)).map BitVec.toNat)

/-- R62: what `DEC_START` does in every state, and that two in a row leave the state of one. -/
def Obligations.DecStartOpensTransaction : Prop :=
  ∀ s : State, ∃ t : State, exec .decStart s = .next t ∧ exec .decStart t = .next t ∧
    t = { s with
      dec := { dstate := .active, acc := 0, nbits := 0, outcnt := 0, errchar := 0, derr := false },
      port := .busy { code := .ok, data := 0 } }

/-- R63, whole: `DEC_CHAR` in `IDLE`, in `ERROR`, and in `ACTIVE` on a non-alphabet byte, on an alphabet
character that completes a byte, and on one that does not. `t` is the residual bits and the new group as
one number. -/
def Obligations.DecCharStep : Prop :=
  ∀ (s : State) (c : Byte),
    (s.dec.dstate = .idle → exec (.decChar c) s =
      .next { s with port := .busy { code := .stateErr, data := 0 } }) ∧
    (s.dec.dstate = .error → exec (.decChar c) s =
      .next { s with port := .busy { code := .decErr, data := s.dec.errchar.setWidth 32 } }) ∧
    (s.dec.dstate = .active → alpha c = none → exec (.decChar c) s =
      .next { s with
        dec := { s.dec with dstate := .error, errchar := c, derr := true, acc := 0, nbits := 0 },
        port := .busy { code := .decErr, data := c.setWidth 32 } }) ∧
    (∀ v : Quintet, s.dec.dstate = .active → alpha c = some v → 3 ≤ s.dec.nbits.toNat →
      let t := s.dec.acc.toNat * 32 + v.toNat
      let r := s.dec.nbits.toNat - 3
      exec (.decChar c) s =
        .next { s with
          dec := { s.dec with acc := BitVec.ofNat 7 (t % 2 ^ r), nbits := BitVec.ofNat 3 r,
                              outcnt := BitVec.ofNat 32 ((s.dec.outcnt.toNat + 1) % 2 ^ 32) },
          port := .busy { code := .ok, data := BitVec.ofNat 32 (256 + t / 2 ^ r % 256) } }) ∧
    (∀ v : Quintet, s.dec.dstate = .active → alpha c = some v → s.dec.nbits.toNat < 3 →
      let t := s.dec.acc.toNat * 32 + v.toNat
      exec (.decChar c) s =
        .next { s with
          dec := { s.dec with acc := BitVec.ofNat 7 (t % 2 ^ 7),
                              nbits := BitVec.ofNat 3 (s.dec.nbits.toNat + 5) },
          port := .busy { code := .ok, data := 0 } })

/-- R65: `DEC_END` in each `DSTATE`; `OUTCNT`, `ERRCHAR` and `DERR` are kept. -/
def Obligations.DecEndClosesTransaction : Prop :=
  ∀ s : State,
    (s.dec.dstate = .idle → exec .decEnd s =
      .next { s with port := .busy { code := .stateErr, data := 0 } }) ∧
    (s.dec.dstate = .error → exec .decEnd s =
      .next { s with
        dec := { s.dec with dstate := .idle },
        port := .busy { code := .decErr, data := s.dec.errchar.setWidth 32 } }) ∧
    (s.dec.dstate = .active → exec .decEnd s =
      .next { s with
        dec := { s.dec with dstate := .idle, acc := 0, nbits := 0 },
        port := .busy { code := .ok, data := s.dec.outcnt } })

/-- R64: after `k` alphabet characters of a transaction, `NBITS`, `ACC`, the bytes emitted and the
responses that carried them. -/
def Obligations.EmissionLaw : Prop :=
  ∀ (s : State) (cs : List Byte) (vs : List Quintet), cs.map alpha = vs.map some →
    ∃ (t : State) (rs : List Response),
      issueAll (.decStart :: cs.map .decChar) s = some (t, { code := .ok, data := 0 } :: rs) ∧
      t.dec.dstate = .active ∧
      t.dec.nbits.toNat = 5 * vs.length % 8 ∧
      t.dec.acc.toNat = streamValue vs % 2 ^ (5 * vs.length % 8) ∧
      rs.length = vs.length ∧
      rs.filterMap emitted = streamBytes vs ∧
      (rs.filterMap emitted).length = 5 * vs.length / 8 ∧
      (∀ (k : Nat) (r : Response), rs[k]? = some r →
        ((emitted r).isSome = true ↔ 5 * k / 8 < 5 * (k + 1) / 8))

/-- R66: the responses of a whole transaction, of alphabet characters only and with a first byte outside
the alphabet. -/
def Obligations.TransactionLaw : Prop :=
  (∀ (s : State) (cs : List Byte) (vs : List Quintet), cs.map alpha = vs.map some →
    ∃ t : State, issueAll (decStr cs) s = some (t, { code := .ok, data := 0 } ::
        (emissionResponses vs ++ [{ code := .ok, data := BitVec.ofNat 32 (5 * vs.length / 8) }])) ∧
      t.dec.dstate = .idle ∧ t.dec.acc = 0 ∧ t.dec.nbits = 0 ∧ t.tru = s.tru ∧ t.ill = s.ill) ∧
  (∀ (s : State) (cs : List Byte) (vs : List Quintet) (c : Byte) (ds : List Byte),
    cs.map alpha = vs.map some → alpha c = none →
    ∃ t : State, issueAll (decStr (cs ++ c :: ds)) s = some (t, { code := .ok, data := 0 } ::
        (emissionResponses vs ++ List.replicate (ds.length + 2)
          { code := .decErr, data := c.setWidth 32 })) ∧
      t.dec.dstate = .idle ∧ t.dec.errchar = c ∧ t.dec.derr = true ∧ t.tru = s.tru ∧ t.ill = s.ill)

/-- R67: `alpha` is the same for both cases of a letter, and replacing letters by their other case
changes no response of a transaction. -/
def Obligations.CaseDoesNotMatter : Prop :=
  (∀ c : Byte, 0x41 ≤ c → c ≤ 0x5A → alpha (c + 0x20) = alpha c) ∧
  (∀ (s : State) (cs ds : List Byte), List.Forall₂ SameButCase cs ds →
    ∃ (t : State) (rs : List Response), issueAll (decStr cs) s = some (t, rs) ∧
      issueAll (decStr ds) s = some (t, rs))

/-- R68: once a transaction has failed, later bytes change nothing and repeat the first offender; a
non-alphabet byte fails the transaction wherever it stands. -/
def Obligations.FirstErrorWins : Prop :=
  (∀ (s : State) (c : Byte) (cs : List Byte), s.dec.dstate = .active → alpha c = none →
    ∃ t : State, issueAll ((c :: cs).map .decChar) s = some (t,
        List.replicate (cs.length + 1) { code := .decErr, data := c.setWidth 32 }) ∧
      t = { s with
        dec := { s.dec with dstate := .error, errchar := c, derr := true, acc := 0, nbits := 0 },
        port := .busy { code := .decErr, data := c.setWidth 32 } }) ∧
  (∀ (s : State) (c : Byte) (cs : List Byte), s.dec.dstate = .error →
    issueAll ((c :: cs).map .decChar) s = some
      ({ s with port := .busy { code := .decErr, data := s.dec.errchar.setWidth 32 } },
       List.replicate (cs.length + 1) { code := .decErr, data := s.dec.errchar.setWidth 32 }))

/-- R16, R66, R69, R103: the host's decode of any byte string, of any length, is the document's function
of the string, whatever the block held before. -/
def Obligations.HostDecodeIsBase32 : Prop :=
  ∀ (s : State) (cs : List Byte), hostDecodeStr cs s = some (base32 cs)

/-- R69: every length is accepted and the dropped bits are not checked: two strings of alphabet
characters of one length whose streams agree but for the trailing bits decode alike. -/
def Obligations.NoLengthOrTrailingCheck : Prop :=
  (∀ (s : State) (cs : List Byte), (∀ c ∈ cs, (alpha c).isSome = true) →
    ∃ bs : List Byte, hostDecodeStr cs s = some (.ok bs) ∧ bs.length = 5 * cs.length / 8) ∧
  (∀ (s : State) (cs ds : List Byte) (vs ws : List Quintet), cs.map alpha = vs.map some →
    ds.map alpha = ws.map some → ds.length = cs.length →
    streamValue ws / 2 ^ (5 * cs.length % 8) = streamValue vs / 2 ^ (5 * cs.length % 8) →
      hostDecodeStr ds s = hostDecodeStr cs s)

/-! ## The truncation unit -/

/-- R70: what `TRU_START` does in every state; `DBUF`, DEC and `ILL` are untouched. -/
def Obligations.TruStartBeginsLoad : Prop :=
  ∀ (s : State) (a : Alg), exec (.truStart a) s =
    .next { s with
      port := .busy { code := .ok, data := 0 },
      tru := { alg := a, tload := true, dcnt := 0, dbuf := s.tru.dbuf, result := 0, offset := 0,
               wrap := false, tvalid := false } }

/-- R71, whole: the two refusals of `TRU_BYTE`, and the byte stored at `DBUF[DCNT]`, with every other
byte of the buffer, every other register and the response. -/
def Obligations.TruByteStoresNext : Prop :=
  ∀ (s : State) (b : Byte),
    (s.tru.tload = false ∨ s.tru.dcnt.toNat = Config.digestLen s.tru.alg →
      exec (.truByte b) s = .next { s with port := .busy { code := .stateErr, data := 0 } }) ∧
    (s.tru.tload = true → s.tru.dcnt.toNat ≠ Config.digestLen s.tru.alg → s.tru.dcnt.toNat < 20 →
      ∃ t : State, exec (.truByte b) s = .next t ∧
        (∀ i : Fin 20, t.tru.dbuf[i] = if i.val = s.tru.dcnt.toNat then b else s.tru.dbuf[i]) ∧
        t.tru.dcnt.toNat = s.tru.dcnt.toNat + 1 ∧
        t.port = .busy { code := .ok, data := BitVec.ofNat 32 (s.tru.dcnt.toNat + 1) } ∧
        t = { s with tru := { s.tru with dbuf := t.tru.dbuf, dcnt := t.tru.dcnt }, port := t.port })

/-- The model's one fault (notes/assumptions/9.md, a choice of the model): no command but `TRU_BYTE`
faults, and it does exactly when it would store beyond `DBUF[19]`, which R27 rules out. -/
def Obligations.OnlyStoreBeyondBufferFaults : Prop :=
  ∀ (i : Instr) (s : State) (f : Fault), exec i s = .fault f ↔
    (∃ b, i = .truByte b) ∧ s.tru.tload = true ∧
      s.tru.dcnt.toNat ≠ Config.digestLen s.tru.alg ∧ 20 ≤ s.tru.dcnt.toNat ∧
      f = .dbufIndex s.tru.dcnt.toNat

/-- R72 with R73, R74, R75: when `TRU_EXEC` refuses, and the value, offset and wrap flag it computes
from the digest bytes `p k = DBUF[k]`. -/
def Obligations.TruExecTruncates : Prop :=
  ∀ s : State,
    (s.tru.tload = false ∨ s.tru.dcnt.toNat ≠ Config.digestLen s.tru.alg →
      exec .truExec s = .next { s with port := .busy { code := .stateErr, data := 0 } }) ∧
    (s.tru.tload = true → s.tru.dcnt.toNat = Config.digestLen s.tru.alg →
      let n := if s.tru.alg = .sha1 then 20 else 16
      let p := fun k => (s.tru.dbuf.toList.getD k 0).toNat
      let off := p (n - 1) % 16
      let val := p (off % n) % 128 * 2 ^ 24 + p ((off + 1) % n) * 2 ^ 16 + p ((off + 2) % n) * 2 ^ 8
        + p ((off + 3) % n)
      val ≤ 0x7FFFFFFF ∧
      exec .truExec s =
        .next { s with
          tru := { s.tru with result := BitVec.ofNat 32 val, offset := BitVec.ofNat 4 off,
                              wrap := decide (n - 4 < off), tvalid := true, tload := false },
          port := .busy { code := .ok, data := BitVec.ofNat 32 val } })

/-- R76: a successful `TRU_EXEC` sets `WRAP` exactly when some window index passes the digest's end:
never for SHA-1, and for MD5 exactly at offsets 13, 14, 15, with the windows listed. -/
def Obligations.WindowWrapsOnlyForMd5 : Prop :=
  (∀ s : State, s.tru.tload = true → s.tru.dcnt.toNat = Config.digestLen s.tru.alg →
    ∃ t : State, exec .truExec s = .next t ∧
    (t.tru.wrap = true ↔ ∃ i < 4, Config.digestLen s.tru.alg ≤ t.tru.offset.toNat + i) ∧
    (s.tru.alg = .sha1 → t.tru.wrap = false) ∧
    (s.tru.alg = .md5 → (t.tru.wrap = true ↔ 13 ≤ t.tru.offset.toNat)) ∧
    (t.tru.wrap = true → ∃ i < 4, (digestIndex s.tru.alg (t.tru.offset.toNat + i)).val = 15)) ∧
  (List.range 4).map (fun i => (digestIndex .md5 (13 + i)).val) = [13, 14, 15, 0] ∧
  (List.range 4).map (fun i => (digestIndex .md5 (14 + i)).val) = [14, 15, 0, 1] ∧
  (List.range 4).map (fun i => (digestIndex .md5 (15 + i)).val) = [15, 0, 1, 2]

/-- R60, R71, R72: the whole of `TRU.DIGEST` in any state: the count after each byte, and the dynamic
truncation of the digest, which is also what `RESULT` holds. Another byte count is refused. -/
def Obligations.DigestTransaction : Prop :=
  (∀ (s : State) (a : Alg) (ds : List Byte), ds.length = Config.digestLen a →
    ∃ (is : List Instr) (t : State), truDigest a ds = some is ∧
      issueAll is s = some (t, { code := .ok, data := 0 } ::
        ((List.range ds.length).map (fun k => { code := .ok, data := BitVec.ofNat 32 (k + 1) }) ++
          [{ code := .ok, data := BitVec.ofNat 32 (dynamicTruncation ds) }])) ∧
      t.tru.result = BitVec.ofNat 32 (dynamicTruncation ds) ∧ dynamicTruncation ds < 2 ^ 31 ∧
      t.tru.tvalid = true ∧ t.tru.tload = false ∧ t.tru.alg = a ∧
      t.tru.dbuf.toList.take ds.length = ds ∧ t.dec = s.dec ∧ t.ill = s.ill) ∧
  (∀ (a : Alg) (ds : List Byte), ds.length ≠ Config.digestLen a → truDigest a ds = none)

/-- R36, R70: what `DBUF` held before a load is never observed: two states that agree but for the bytes
at `DCNT` and above give equal responses, and agree so again after any command. -/
def Obligations.StaleDigestBytesUnobservable : Prop :=
  ∀ (i : Instr) (s u : State), TruInv s.tru →
    u = { s with tru := { s.tru with dbuf := u.tru.dbuf } } →
    (∀ k : Fin 20, k.val < s.tru.dcnt.toNat → u.tru.dbuf[k] = s.tru.dbuf[k]) →
    ∃ t v : State, exec i s = .next t ∧ exec i u = .next v ∧
      v = { t with tru := { t.tru with dbuf := v.tru.dbuf } } ∧
      (∀ k : Fin 20, k.val < t.tru.dcnt.toNat → v.tru.dbuf[k] = t.tru.dbuf[k])

/-! ## Control and readback -/

/-- R81: `NOP` responds `OK, 0` and changes nothing. -/
def Obligations.NopOnlyResponds : Prop :=
  ∀ s : State, exec .nop s = .next { s with port := .busy { code := .ok, data := 0 } }

/-- R29, R77: `RD.STATUS` responds the STATUS word, bit field by bit field, and changes nothing. -/
def Obligations.StatusWordLayout : Prop :=
  ∀ s : State, ∃ d : Data,
    exec .rdStatus s = .next { s with port := .busy { code := .ok, data := d } } ∧
    (d.extractLsb' 0 2).toNat =
      (if s.dec.dstate = .idle then 0 else if s.dec.dstate = .active then 1 else 2) ∧
    d.getLsbD 2 = s.dec.derr ∧ d.getLsbD 3 = false ∧ d.extractLsb' 4 3 = s.dec.nbits ∧
    d.getLsbD 7 = false ∧ d.extractLsb' 8 8 = s.dec.errchar ∧ d.getLsbD 16 = s.tru.tload ∧
    d.getLsbD 17 = decide (s.tru.alg = .md5) ∧ d.extractLsb' 18 5 = s.tru.dcnt ∧
    d.getLsbD 23 = s.tru.wrap ∧ d.extractLsb' 24 4 = s.tru.offset ∧ d.getLsbD 28 = s.tru.tvalid ∧
    d.getLsbD 29 = s.ill ∧ d.extractLsb' 30 2 = 0

/-- R78, R79, R80 with R30: `RD.RESULT`, `RD.OUTCNT` and `RD.ACC` respond their words and change
nothing. -/
def Obligations.ReadbackWords : Prop :=
  ∀ s : State,
    exec .rdResult s = .next { s with port := .busy { code := .ok, data := s.tru.result } } ∧
    exec .rdOutcnt s = .next { s with port := .busy { code := .ok, data := s.dec.outcnt } } ∧
    exec .rdAcc s = .next { s with
      port := .busy { code := .ok, data := BitVec.ofNat 32 (s.dec.nbits.toNat * 2 ^ 8 + s.dec.acc.toNat) } }

/-- R47: `NOP` and the four reads have no side effect and are idempotent: the same response and the same
state on a second issue. -/
def Obligations.ReadsAreIdempotent : Prop :=
  ∀ (i : Instr) (s : State), i ∈ [.nop, .rdStatus, .rdResult, .rdOutcnt, .rdAcc] →
    ∃ r : Response, r.code = .ok ∧ exec i s = .next { s with port := .busy r } ∧
      issueAll [i, i] s = some ({ s with port := .busy r }, [r, r])

/-- R94: the four read commands together show every register except `DBUF`. -/
def Obligations.ReadsShowEveryRegister : Prop :=
  ∀ s u : State,
    (∀ i ∈ [Instr.rdStatus, .rdResult, .rdOutcnt, .rdAcc],
      (issue i s).map Prod.snd = (issue i u).map Prod.snd) →
    u.dec = s.dec ∧ u.ill = s.ill ∧ u.tru = { s.tru with dbuf := u.tru.dbuf }

/-! ## Errors -/

/-- R85: `STATE_ERR` exactly under its listed conditions, with data 0 and no change. -/
def Obligations.StateErrExactly : Prop :=
  ∀ (i : Instr) (s : State),
    (StateErrCond i s → exec i s = .next { s with port := .busy { code := .stateErr, data := 0 } }) ∧
    (∀ (t : State) (d : Data), exec i s = .next t → t.port = .busy { code := .stateErr, data := d } →
      StateErrCond i s)

/-- R63, R65, R86, R87: `DEC_ERR` exactly when a decode transaction has failed or fails on this byte,
carrying the byte that failed it; in `ERROR` it is `DEC_ERR`, not `STATE_ERR`. -/
def Obligations.DecErrExactly : Prop :=
  ∀ (i : Instr) (s : State),
    (DecErrCond i s → ∃ t : State, exec i s = .next t ∧
      (s.dec.dstate = .error → t.dec.errchar = s.dec.errchar) ∧
      (∀ c, i = .decChar c → s.dec.dstate = .active → t.dec.errchar = c) ∧
      t.port = .busy { code := .decErr, data := t.dec.errchar.setWidth 32 }) ∧
    (∀ (t : State) (d : Data), exec i s = .next t → t.port = .busy { code := .decErr, data := d } →
      DecErrCond i s)

/-- R58, cell by cell: every accepted word gives one response; the codes each command can give; the data
word of each code, for `OK` command by command. -/
def Obligations.OneResponsePerCommand : Prop :=
  (∀ (i : Instr) (s t : State), exec i s = .next t → ∃ r : Response, t.port = .busy r ∧
    r.code ≠ .illegal ∧
    (r.code = .decErr → (∃ c, i = .decChar c) ∨ i = .decEnd) ∧
    (r.code = .stateErr → (∃ c, i = .decChar c) ∨ i = .decEnd ∨ (∃ b, i = .truByte b) ∨ i = .truExec) ∧
    (r.code = .ok → OkData i s t r.data) ∧
    (r.code = .decErr → r.data = t.dec.errchar.setWidth 32) ∧
    (r.code = .stateErr → r.data = 0)) ∧
  (∀ (w : Cmd) (s t : State), accept w s = .next t → ∃ r : Response, t.port = .busy r ∧
    ResponseWf r ∧ (r.code = .illegal ↔ ReservedWord w) ∧
    (r.code = .illegal → r.data = w.setWidth 32))

/-! ## The two units are independent -/

/-- R32: a DEC command reads and writes only DEC registers: on two states with the same DEC it does the
same to DEC, responds the same, and leaves TRU, `ILL` and the edges. -/
def Obligations.DecCommandsStayInDec : Prop :=
  ∀ (i : Instr) (s u : State), (i = .decStart ∨ (∃ c, i = .decChar c) ∨ i = .decEnd) → s.dec = u.dec →
    ∃ (d : DecRegs) (r : Response), exec i s = .next { s with dec := d, port := .busy r } ∧
      exec i u = .next { u with dec := d, port := .busy r }

/-- R32: a TRU command reads and writes only TRU registers (in a state R27 allows, where it never
faults). -/
def Obligations.TruCommandsStayInTru : Prop :=
  ∀ (i : Instr) (s u : State), ((∃ a, i = .truStart a) ∨ (∃ b, i = .truByte b) ∨ i = .truExec) →
    s.tru = u.tru → TruInv s.tru →
    ∃ (q : TruRegs) (r : Response), exec i s = .next { s with tru := q, port := .busy r } ∧
      exec i u = .next { u with tru := q, port := .busy r }

/-- R15: the responses of a decode transaction depend only on its characters, and those of a digest load
and truncation only on the algorithm and the digest, whatever the block held before. -/
def Obligations.TransactionsArePure : Prop :=
  ∀ s u : State,
    (∀ cs : List Byte, ∃ (rs : List Response) (t v : State),
      issueAll (decStr cs) s = some (t, rs) ∧ issueAll (decStr cs) u = some (v, rs)) ∧
    (∀ (a : Alg) (ds : List Byte) (is : List Instr), truDigest a ds = some is →
      ∃ (rs : List Response) (t v : State),
        issueAll is s = some (t, rs) ∧ issueAll is u = some (v, rs))

/-! ## Invariants that every step keeps -/

/-- R24: every step keeps the DEC invariants, and reset has them. That `DSTATE` is not 3 holds already by
its type (notes/assumptions/6.md). -/
def Obligations.StepKeepsDecInvariants : Prop :=
  DecInv State.reset.dec ∧
  ∀ s t : State, DecInv s.dec → step s = .next t → DecInv t.dec

/-- R27: every step keeps the TRU invariants, and reset has them. -/
def Obligations.StepKeepsTruInvariants : Prop :=
  TruInv State.reset.tru ∧
  ∀ s t : State, TruInv s.tru → step s = .next t → TruInv t.tru

/-- R22, R25, R80: with the DEC invariants, every step keeps that no residue is held outside `ACTIVE`,
that `ERRCHAR` is 0 where no byte was refused, and that a value is held only of a complete digest. -/
def Obligations.StepKeepsUnitInvariants : Prop :=
  ∀ s t : State, DecInv s.dec → UnitInv s → step s = .next t → UnitInv t

/-- R58, R83, R84: every step keeps that the port holds only a response a command can give, and an
`ILLEGAL` one only with `ILL` set. -/
def Obligations.StepKeepsPortInvariant : Prop :=
  ∀ s t : State, PortInv s → step s = .next t → PortInv t

/-- "every command word in every state has one defined next state and one response"
(93_implementation_defined.md): from a state the invariants allow, no step faults or refuses, and the
next state is again such a state. -/
def Obligations.StepNeverStopsUnderInvariant : Prop :=
  ∀ s : State, Inv s → ∃ t : State, step s = .next t ∧ Inv t

/-- R28: `ILL` is set by every command refused as `ILLEGAL`, by nothing else, and cleared only by
reset. -/
def Obligations.IllIsSticky : Prop :=
  ∀ s t : State, step s = .next t →
    (s.ill = true → t.ill = true ∨ ∃ e es, s.edges = e :: es ∧ e.rst = true) ∧
    (t.ill = true → s.ill = true ∨ ∃ e es, s.edges = e :: es ∧ e.rst = false ∧ e.cmdValid = true ∧
      s.cmdReady = true ∧ ReservedWord e.cmd) ∧
    (∀ e es, s.edges = e :: es → e.rst = false → e.cmdValid = true → s.cmdReady = true →
      ReservedWord e.cmd → t.ill = true)

/-- R31: each flag is set and cleared by the listed commands only (`ILL` by no legal command; what reset
does to them all is `ResetEdgeThenReady`). -/
def Obligations.FlagsChangeOnlyAsListed : Prop :=
  ∀ (i : Instr) (s t : State), exec i s = .next t →
    (s.dec.derr = false → t.dec.derr = true →
      ∃ c, i = .decChar c ∧ s.dec.dstate = .active ∧ alpha c = none) ∧
    (s.dec.derr = true → t.dec.derr = false → i = .decStart) ∧
    (s.tru.tload = false → t.tru.tload = true → ∃ a, i = .truStart a) ∧
    (s.tru.tload = true → t.tru.tload = false →
      i = .truExec ∧ s.tru.dcnt.toNat = Config.digestLen s.tru.alg) ∧
    (s.tru.wrap = false → t.tru.wrap = true → i = .truExec ∧ s.tru.tload = true ∧
      Config.digestLen s.tru.alg ≤ t.tru.offset.toNat + 3) ∧
    (s.tru.wrap = true → t.tru.wrap = false → (∃ a, i = .truStart a) ∨
      (i = .truExec ∧ s.tru.tload = true ∧ t.tru.offset.toNat + 3 < Config.digestLen s.tru.alg)) ∧
    (s.tru.tvalid = false → t.tru.tvalid = true →
      i = .truExec ∧ s.tru.tload = true ∧ s.tru.dcnt.toNat = Config.digestLen s.tru.alg) ∧
    (s.tru.tvalid = true → t.tru.tvalid = false → ∃ a, i = .truStart a) ∧
    t.ill = s.ill

/-! ## The handshake -/

/-- R20, R83: the pins while a response is valid, with the value of each code; in every other phase
`rsp_valid` is 0. -/
def Obligations.ResponsePins : Prop :=
  ∀ (s : State) (c : Code) (d : Data),
    (s.port = .responding { code := c, data := d } → s.rspValid = true ∧ s.cmdReady = false ∧
      s.rspData = some d ∧ s.rspCode = some
        (match c with | .ok => 0b00 | .decErr => 0b01 | .stateErr => 0b10 | .illegal => 0b11)) ∧
    (s.rspValid = true → ∃ r, s.port = .responding r)

/-- R94: the block is idle whenever no command is offered, and all state survives idleness; so too where
no edge is listed (notes/assumptions/3.md, a choice of the model). -/
def Obligations.IdleBlockKeepsState : Prop :=
  ∀ s : State,
    (∀ (e : Edge) (es : List Edge), s.edges = e :: es → e.rst = false → e.cmdValid = false →
      s.cmdReady = true → step s = .next { s with edges := es }) ∧
    (s.edges = [] → step s = .next s)

/-- R98, R106, D28: while `cmd_ready` is 0 an offered word is not accepted: the offer makes no
difference to the step, and no register changes but by reset (that the edge which takes a response
accepts nothing is notes/assumptions/11.md, an inference of the model). -/
def Obligations.NotReadyAcceptsNothing : Prop :=
  ∀ (s : State) (e : Edge) (es : List Edge) (v : Bool) (w : Cmd), s.cmdReady = false →
    s.edges = e :: es →
    step s = step { s with edges := { e with cmdValid := v, cmd := w } :: es } ∧
    (e.rst = false → ∃ p : Port, step s = .next { s with port := p, edges := es })

/-- R98: how the port moves, back over every step and forward at an edge with `rst = 0`. A computed response
becomes valid next, whether or not the host is ready already; a valid one stays until it is taken; only
then is the block on its way back to `cmd_ready`; and a command is in progress only after its word was
accepted. Not R98 but the model's own: at which edge a response becomes valid or `cmd_ready` rises, which
R98 and R101 leave open and the clauses with `Edge.done` state as that bit decides it (a design choice,
notes/assumptions/2.md); that the first edge with `rst = 0` only leaves `.inReset` for `.ready` (an
inference, notes/assumptions/4.md); and that the edge which takes a response accepts no word (an inference,
notes/assumptions/11.md). -/
def Obligations.CommandsAndResponsesAlternate : Prop :=
  ∀ s t : State, step s = .next t →
    (∀ r, t.port = .responding r → s.port = .busy r ∨ s.port = .responding r) ∧
    (∀ r, t.port = .busy r → s.port = .busy r ∨
      ∃ e es, s.edges = e :: es ∧ e.rst = false ∧ s.cmdReady = true ∧ e.cmdValid = true ∧
        accept e.cmd { s with edges := es } = .next t) ∧
    (t.port = .recovering → s.port = .recovering ∨
      ∃ r e es, s.port = .responding r ∧ s.edges = e :: es ∧ e.rst = false ∧ e.rspReady = true) ∧
    (t.cmdReady = true → s.cmdReady = true ∨ s.port = .inReset ∨ s.port = .recovering ∨
      ∃ r e es, s.port = .responding r ∧ s.edges = e :: es ∧ e.rst = false ∧ e.rspReady = true) ∧
    (∀ e es, s.edges = e :: es → e.rst = false →
      (∀ r, s.port = .busy r → t.port = if e.done then .responding r else .busy r) ∧
      (∀ r, s.port = .responding r → e.rspReady = false → t.port = .responding r) ∧
      (∀ r, s.port = .responding r → e.rspReady = true →
        t.port = if e.done then .ready else .recovering) ∧
      (s.port = .recovering → t.port = if e.done then .ready else .recovering) ∧
      (s.port = .inReset → t.port = .ready) ∧
      (s.cmdReady = true → e.cmdValid = true → ∃ r, t.port = .busy r) ∧
      (s.cmdReady = true → e.cmdValid = false → t.port = .ready))

/-- R98, R99: a response the host does not take stays on the pins unchanged, for any number of edges and
whatever word is offered, and the block accepts no further command. -/
def Obligations.UntakenResponseStopsBlock : Prop :=
  ∀ (s : State) (r : Response) (hs es : List Edge), s.port = .responding r → s.edges = hs ++ es →
    (∀ e ∈ hs, e.rst = false ∧ e.rspReady = false) →
      core.run hs.length s = .next { s with edges := es }

/-- R20, R98, R101: a command at the signal level, for every latency of `waits.length + 1` edges, every time
the host lets the response stand, every time until `cmd_ready` rises (the open choices are `Edge.done`,
notes/assumptions/2.md), and whatever else the pins say: the response is not valid before, stands on the
pins from then until it is taken, `cmd_ready` is 0 all along, and at the end the registers are those the
command left and the block is ready. The edges of a script's command are of this form. -/
def Obligations.SignalLevelCommandCompletes : Prop :=
  (∀ (s t : State) (a f g : Edge) (waits holds back es : List Edge) (r : Response), s.port = .ready →
    s.edges = a :: (waits ++ f :: (holds ++ g :: (back ++ es))) →
    CommandTraffic a f g waits holds back → accept a.cmd s = .next t → t.port = .busy r →
      (∀ k ≤ waits.length, ∃ u : State, core.run (k + 1) s = .next u ∧ u.rspValid = false ∧
        u.cmdReady = false) ∧
      (∀ k ≤ holds.length, ∃ u : State, core.run (waits.length + 2 + k) s = .next u ∧
        u.rspPins = some r ∧ u.cmdReady = false) ∧
      (∀ k < back.length, ∃ u : State, core.run (waits.length + holds.length + 3 + k) s = .next u ∧
        u.rspValid = false ∧ u.cmdReady = false) ∧
      core.run (waits.length + holds.length + back.length + 3) s =
        .next { t with port := .ready, edges := es }) ∧
  (∀ (w : Cmd) (wait hold n : Nat) (es : List Edge), ∃ (a f g : Edge) (waits holds back : List Edge),
    commandEdges w wait hold n ++ es = a :: (waits ++ f :: (holds ++ g :: (back ++ es))) ∧
      CommandTraffic a f g waits holds back ∧ a.cmd = w ∧ waits.length = wait ∧ holds.length = hold ∧
      back.length = n)
end

