-- ==== Sys2Proof/Laws/State.lean ====
section
/-! SUPPORT. One lemma per field per update of the state, so that no proof unfolds a record update. -/

namespace Sys2Proof.Machine

/-! ## respond -/

@[simp] theorem respond_dec (c : Code) (d : Data) (s : State) : (respond c d s).dec = s.dec := rfl
@[simp] theorem respond_tru (c : Code) (d : Data) (s : State) : (respond c d s).tru = s.tru := rfl
@[simp] theorem respond_ill (c : Code) (d : Data) (s : State) : (respond c d s).ill = s.ill := rfl
@[simp] theorem respond_edges (c : Code) (d : Data) (s : State) :
    (respond c d s).edges = s.edges := rfl
@[simp] theorem respond_port (c : Code) (d : Data) (s : State) :
    (respond c d s).port = .busy { code := c, data := d } := rfl

/-! ## illegal -/

@[simp] theorem illegal_dec (w : Cmd) (s : State) : (illegal w s).dec = s.dec := rfl
@[simp] theorem illegal_tru (w : Cmd) (s : State) : (illegal w s).tru = s.tru := rfl
@[simp] theorem illegal_ill (w : Cmd) (s : State) : (illegal w s).ill = true := rfl
@[simp] theorem illegal_edges (w : Cmd) (s : State) : (illegal w s).edges = s.edges := rfl
@[simp] theorem illegal_port (w : Cmd) (s : State) :
    (illegal w s).port = .busy { code := .illegal, data := w.setWidth 32 } := rfl

/-! ## applyReset -/

@[simp] theorem applyReset_dec (s : State) : (applyReset s).dec = DecRegs.reset := rfl
@[simp] theorem applyReset_tru (s : State) : (applyReset s).tru = TruRegs.reset := rfl
@[simp] theorem applyReset_ill (s : State) : (applyReset s).ill = false := rfl
@[simp] theorem applyReset_edges (s : State) : (applyReset s).edges = s.edges := rfl
@[simp] theorem applyReset_port (s : State) : (applyReset s).port = .inReset := rfl

/-! ## withFetchWord -/

@[simp] theorem withFetchWord_dec (s : State) (n w : Nat) : (s.withFetchWord n w).dec = s.dec := rfl
@[simp] theorem withFetchWord_tru (s : State) (n w : Nat) : (s.withFetchWord n w).tru = s.tru := rfl
@[simp] theorem withFetchWord_ill (s : State) (n w : Nat) : (s.withFetchWord n w).ill = s.ill := rfl
@[simp] theorem withFetchWord_port (s : State) (n w : Nat) :
    (s.withFetchWord n w).port = .ready := rfl
@[simp] theorem withFetchWord_edges (s : State) (n w : Nat) :
    (s.withFetchWord n w).edges = offer (BitVec.ofNat 16 (w % 2 ^ n)) :: s.edges := rfl

/-! ## The edges a host makes -/

@[simp] theorem offer_rst (w : Cmd) : (offer w).rst = false := rfl
@[simp] theorem offer_cmdValid (w : Cmd) : (offer w).cmdValid = true := rfl
@[simp] theorem offer_cmd (w : Cmd) : (offer w).cmd = w := rfl
@[simp] theorem quiet_rst : quiet.rst = false := rfl
@[simp] theorem quiet_rspReady : quiet.rspReady = false := rfl
@[simp] theorem quiet_done : quiet.done = false := rfl
@[simp] theorem finish_rst : finish.rst = false := rfl
@[simp] theorem finish_done : finish.done = true := rfl

/-! ## The pins read from the port -/

/-- `cmd_ready` is 1 exactly in `ready` (R98). -/
@[simp] theorem cmdReady_eq_true {s : State} : s.cmdReady = true ↔ s.port = .ready := by
  unfold State.cmdReady; split <;> simp_all

/-- `rsp_valid` is 1 exactly while the response is on the pins (R98). -/
theorem rspPins_eq_some {s : State} {r : Response} :
    s.rspPins = some r ↔ s.port = .responding r := by
  unfold State.rspPins; split <;> simp_all

theorem rspValid_eq_true {s : State} : s.rspValid = true ↔ ∃ r, s.port = .responding r := by
  simp only [State.rspValid, Option.isSome_iff_exists, rspPins_eq_some]

end Sys2Proof.Machine
end

