-- ==== Sys2Proof/Laws/Ops.lean ====
section
/-! SUPPORT. One lemma per shared operation that says what it does: the digest buffer, the 5-to-8 step,
the truncation value, the decoder's fields. -/

namespace Sys2Proof.Machine

/-! ## The digest buffer (R40) -/

theorem digestLen_le (a : Alg) : Config.digestLen a ≤ 20 := digestLen_le_depth a

@[simp] theorem digestIndex_val (a : Alg) (k : Nat) :
    (digestIndex a k).val = k % Config.digestLen a := rfl

/-- A store to a byte that exists succeeds and changes `DBUF` alone. -/
theorem storeByte_eq {t : TruRegs} {i : Nat} (b : Byte) (h : i < 20) :
    t.storeByte i b = some { t with dbuf := t.dbuf.set i b h } := by
  simp [TruRegs.storeByte, h]

/-- A store to a byte that does not exist is refused. -/
theorem storeByte_none {t : TruRegs} {i : Nat} {b : Byte} : t.storeByte i b = none ↔ 20 ≤ i := by
  unfold TruRegs.storeByte; split <;> simp_all

/-- Everything a store can do: the byte stored reads back, every other byte and register is unchanged. -/
theorem storeByte_some {t u : TruRegs} {i : Nat} {b : Byte} (h : t.storeByte i b = some u) :
    i < 20 ∧ u = { t with dbuf := u.dbuf } ∧
      ∀ k : Fin 20, u.dbuf[k] = if k.val = i then b else t.dbuf[k] := by
  unfold TruRegs.storeByte at h
  split at h
  case isTrue hi =>
    obtain rfl := Option.some.inj h
    refine ⟨hi, rfl, fun k => ?_⟩
    simp only [Fin.getElem_fin, Vector.getElem_set, eq_comm]
  case isFalse => simp at h

theorem digestComplete_eq_true {t : TruRegs} :
    digestComplete t = true ↔ t.dcnt.toNat = Config.digestLen t.alg := by
  simp [digestComplete]

theorem digestComplete_eq_false {t : TruRegs} :
    digestComplete t = false ↔ t.dcnt.toNat ≠ Config.digestLen t.alg := by
  simp [digestComplete]

/-! ## The 5-to-8 step (R63) -/

/-- The residual bits and the new group as one number. -/
theorem shiftIn_toNat (acc : BitVec 7) (v : Quintet) :
    (shiftIn acc v).toNat = acc.toNat * 32 + v.toNat := by
  have hv := v.isLt
  have ha := acc.isLt
  have h : (acc.setWidth 12 <<< 5).toNat = 2 ^ 5 * acc.toNat := by
    simp only [BitVec.toNat_shiftLeft, BitVec.toNat_setWidth, Nat.shiftLeft_eq]; omega
  have h' : (v.setWidth 12).toNat = v.toNat := by simp only [BitVec.toNat_setWidth]; omega
  rw [shiftIn, BitVec.toNat_or, h, h', ← Nat.two_pow_add_eq_or_of_lt hv]; omega

theorem oldestByte_toNat (t : BitVec 12) (n : Nat) :
    (oldestByte t n).toNat = t.toNat / 2 ^ (n - 8) % 256 := by
  simp [oldestByte, BitVec.extractLsb'_toNat, Nat.shiftRight_eq_div_pow]

theorem residue_toNat (t : BitVec 12) {r : Nat} (h : r ≤ 7) :
    (residue t r).toNat = t.toNat % 2 ^ r := by
  have hlt : t.toNat % 2 ^ r < 2 ^ 7 :=
    Nat.lt_of_lt_of_le (Nat.mod_lt _ (Nat.two_pow_pos r)) (Nat.pow_le_pow_right (by decide) h)
  simp only [residue, BitVec.toNat_setWidth, BitVec.extractLsb'_toNat, Nat.shiftRight_zero]
  exact Nat.mod_eq_of_lt hlt

theorem emitWord_toNat (b : Byte) : (emitWord b).toNat = 256 + b.toNat := by
  have := b.isLt
  have h : (1#1 ++ b).toNat = 256 + b.toNat := by
    rw [BitVec.toNat_append, ← Nat.shiftLeft_add_eq_or_of_lt this]; simp
  rw [emitWord, BitVec.toNat_setWidth, h]; omega

/-- A byte is emitted when three or more residual bits were held. -/
theorem feedGroup_emit {v : Quintet} {s : State} (h : 3 ≤ s.dec.nbits.toNat) :
    feedGroup v s = respond .ok (emitWord (oldestByte (shiftIn s.dec.acc v) (s.dec.nbits.toNat + 5)))
      { s with dec := { s.dec with
          acc := residue (shiftIn s.dec.acc v) (s.dec.nbits.toNat - 3),
          nbits := BitVec.ofNat 3 (s.dec.nbits.toNat - 3), outcnt := s.dec.outcnt + 1 } } := by
  have h8 : 8 ≤ s.dec.nbits.toNat + 5 := by omega
  have hr : s.dec.nbits.toNat + 5 - 8 = s.dec.nbits.toNat - 3 := by omega
  simp only [feedGroup, h8, if_true, hr]

/-- No byte is emitted when fewer than three residual bits were held. -/
theorem feedGroup_keep {v : Quintet} {s : State} (h : s.dec.nbits.toNat < 3) :
    feedGroup v s = respond .ok 0
      { s with dec := { s.dec with
          acc := (shiftIn s.dec.acc v).setWidth 7,
          nbits := BitVec.ofNat 3 (s.dec.nbits.toNat + 5) } } := by
  have h8 : ¬ 8 ≤ s.dec.nbits.toNat + 5 := by omega
  simp only [feedGroup, h8, if_false]

/-! ## Truncation (R73 to R75) -/

theorem truncOffset_toNat (t : TruRegs) :
    (truncOffset t).toNat
      = (t.digestByte (digestIndex t.alg (Config.digestLen t.alg - 1))).toNat % 16 := by
  simp [truncOffset, BitVec.extractLsb'_toNat]

/-- Four bytes in a row as one big-endian number. -/
theorem append4_toNat (a b c d : Byte) :
    (a ++ b ++ c ++ d : BitVec 32).toNat
      = a.toNat * 2 ^ 24 + b.toNat * 2 ^ 16 + c.toNat * 2 ^ 8 + d.toNat := by
  have hb := b.isLt
  have hc := c.isLt
  have hd := d.isLt
  rw [BitVec.toNat_append, ← Nat.shiftLeft_add_eq_or_of_lt hd, BitVec.toNat_append,
    ← Nat.shiftLeft_add_eq_or_of_lt hc, BitVec.toNat_append, ← Nat.shiftLeft_add_eq_or_of_lt hb]
  simp only [Nat.shiftLeft_eq]
  omega

/-- Masking bit 7 of a byte keeps its low seven bits. -/
theorem mask7_toNat (b : Byte) : (b &&& 0x7F).toNat = b.toNat % 128 := by
  rw [BitVec.toNat_and]; exact Nat.and_two_pow_sub_one_eq_mod b.toNat 7

theorem truncValue_toNat (t : TruRegs) (off : BitVec 4) :
    (truncValue t off).toNat
      = (windowByte t off 0).toNat % 128 * 2 ^ 24 + (windowByte t off 1).toNat * 2 ^ 16
        + (windowByte t off 2).toNat * 2 ^ 8 + (windowByte t off 3).toNat := by
  rw [truncValue, append4_toNat, mask7_toNat]

theorem wraps_eq_true {a : Alg} {off : BitVec 4} :
    wraps a off = true ↔ a = .md5 ∧ 13 ≤ off.toNat := by
  have := off.isLt
  have h : wraps a off = true ↔ Config.digestLen a - 4 < off.toNat := decide_eq_true_iff
  rw [h]
  cases a
  case sha1 => simp [Config.digestLen]; omega
  case md5 => simp [Config.digestLen]; omega

/-! ## The fields of a command word (R51) -/

theorem opField_toNat (w : Cmd) : (opField w).toNat = w.toNat / 2 ^ 12 := by
  have := w.isLt
  simp only [opField, BitVec.extractLsb'_toNat, Nat.shiftRight_eq_div_pow]; omega

theorem subField_toNat (w : Cmd) : (subField w).toNat = w.toNat / 2 ^ 8 % 2 ^ 4 := by
  simp only [subField, BitVec.extractLsb'_toNat, Nat.shiftRight_eq_div_pow]

theorem dataField_toNat (w : Cmd) : (dataField w).toNat = w.toNat % 2 ^ 8 := by
  simp only [dataField, BitVec.extractLsb'_toNat, Nat.shiftRight_zero]

end Sys2Proof.Machine
end

