-- ==== Sys2Proof/Laws/Exec.lean ====
section
/-! SUPPORT. What an accepted command, an edge and a step can do, said once: one inversion lemma each. -/

namespace Sys2Proof.Machine

/-- Everything `DEC_CHAR` can do (R63). -/
theorem execDecChar_cases (c : Byte) (s : State) :
    (s.dec.dstate = .idle ∧ execDecChar c s = .next (respondStateErr s)) ∨
    (s.dec.dstate = .error ∧ execDecChar c s = .next (respondDecErr s.dec.errchar s)) ∨
    (s.dec.dstate = .active ∧ alpha c = none ∧ execDecChar c s = .next (failDecode c s)) ∨
    (∃ v, s.dec.dstate = .active ∧ alpha c = some v ∧ execDecChar c s = .next (feedGroup v s)) := by
  unfold execDecChar
  cases hd : s.dec.dstate
  case idle => simp
  case error => simp
  case active => cases ha : alpha c <;> simp

/-- Everything `DEC_END` can do (R65). -/
theorem execDecEnd_cases (s : State) :
    (s.dec.dstate = .idle ∧ execDecEnd s = .next (respondStateErr s)) ∨
    (s.dec.dstate = .error ∧ execDecEnd s =
      .next (respondDecErr s.dec.errchar { s with dec := { s.dec with dstate := .idle } })) ∨
    (s.dec.dstate = .active ∧ execDecEnd s =
      .next (respond .ok s.dec.outcnt
        { s with dec := { s.dec with acc := 0, nbits := 0, dstate := .idle } })) := by
  unfold execDecEnd
  cases s.dec.dstate <;> simp

/-- Everything `TRU_BYTE` can do (R71). -/
theorem execTruByte_cases (b : Byte) (s : State) :
    ((s.tru.tload = false ∨ s.tru.dcnt.toNat = Config.digestLen s.tru.alg) ∧
      execTruByte b s = .next (respondStateErr s)) ∨
    (s.tru.tload = true ∧ s.tru.dcnt.toNat ≠ Config.digestLen s.tru.alg ∧ 20 ≤ s.tru.dcnt.toNat ∧
      execTruByte b s = .fault (.dbufIndex s.tru.dcnt.toNat)) ∨
    (s.tru.tload = true ∧ s.tru.dcnt.toNat ≠ Config.digestLen s.tru.alg ∧
      ∃ h : s.tru.dcnt.toNat < 20, execTruByte b s =
        .next (respond .ok ((s.tru.dcnt + 1).setWidth 32)
          { s with tru := { s.tru with dbuf := s.tru.dbuf.set s.tru.dcnt.toNat b h,
                                       dcnt := s.tru.dcnt + 1 } })) := by
  by_cases hl : s.tru.tload = true
  case neg => exact .inl ⟨.inl (by simpa using hl), by simp [execTruByte, hl]⟩
  by_cases hc : digestComplete s.tru = true
  case pos => exact .inl ⟨.inr (digestComplete_eq_true.1 hc), by simp [execTruByte, hl, hc]⟩
  have hne := digestComplete_eq_false.1 (by simpa using hc)
  by_cases h : s.tru.dcnt.toNat < 20
  case pos => exact .inr (.inr ⟨hl, hne, h, by simp [execTruByte, hl, hc, storeByte_eq b h]⟩)
  case neg =>
    have hn : s.tru.storeByte s.tru.dcnt.toNat b = none := storeByte_none.2 (by omega)
    exact .inr (.inl ⟨hl, hne, by omega, by simp [execTruByte, hl, hc, hn]⟩)

/-- Everything `TRU_EXEC` can do (R72). -/
theorem execTruExec_cases (s : State) :
    ((s.tru.tload = false ∨ s.tru.dcnt.toNat ≠ Config.digestLen s.tru.alg) ∧
      execTruExec s = .next (respondStateErr s)) ∨
    (s.tru.tload = true ∧ s.tru.dcnt.toNat = Config.digestLen s.tru.alg ∧ execTruExec s =
      .next (respond .ok (truncValue s.tru (truncOffset s.tru))
        { s with tru := { s.tru with
            result := truncValue s.tru (truncOffset s.tru), offset := truncOffset s.tru,
            wrap := wraps s.tru.alg (truncOffset s.tru), tvalid := true, tload := false } })) := by
  unfold execTruExec
  by_cases h : s.tru.tload = false ∨ digestComplete s.tru = false
  case pos => exact .inl ⟨h.imp_right digestComplete_eq_false.1, by simp [h]⟩
  case neg =>
    rw [not_or] at h
    exact .inr ⟨by simpa using h.1, digestComplete_eq_true.1 (by simpa using h.2), by simp [h]⟩

/-- What any accepted command does (R9, R32, R58): it answers a next state with a response at the port,
new DEC and TRU registers, and everything else as before; or it is a `TRU_BYTE` that stops at a byte that
does not exist. -/
theorem exec_shape (i : Instr) (s : State) :
    (∃ d q r, exec i s = .next { s with dec := d, tru := q, port := .busy r }) ∨
    (∃ b, i = .truByte b ∧ s.tru.tload = true ∧ s.tru.dcnt.toNat ≠ Config.digestLen s.tru.alg ∧
      20 ≤ s.tru.dcnt.toNat ∧ exec i s = .fault (.dbufIndex s.tru.dcnt.toNat)) := by
  cases i <;> simp only [exec]
  case nop => exact .inl ⟨_, _, _, rfl⟩
  case decStart => exact .inl ⟨_, _, _, rfl⟩
  case decChar c =>
    rcases execDecChar_cases c s with ⟨_, h⟩ | ⟨_, h⟩ | ⟨_, _, h⟩ | ⟨v, _, _, h⟩
    · exact .inl ⟨_, _, _, h⟩
    · exact .inl ⟨_, _, _, h⟩
    · exact .inl ⟨_, _, _, h⟩
    · rcases Nat.lt_or_ge s.dec.nbits.toNat 3 with h3 | h3
      · rw [feedGroup_keep h3] at h; exact .inl ⟨_, _, _, h⟩
      · rw [feedGroup_emit h3] at h; exact .inl ⟨_, _, _, h⟩
  case decEnd => rcases execDecEnd_cases s with ⟨_, h⟩ | ⟨_, h⟩ | ⟨_, h⟩ <;> exact .inl ⟨_, _, _, h⟩
  case truStart a => exact .inl ⟨_, _, _, rfl⟩
  case truByte b =>
    rcases execTruByte_cases b s with ⟨_, h⟩ | ⟨hl, hne, h20, h⟩ | ⟨_, _, _, h⟩
    · exact .inl ⟨_, _, _, h⟩
    · exact .inr ⟨b, rfl, hl, hne, h20, h⟩
    · exact .inl ⟨_, _, _, h⟩
  case truExec => rcases execTruExec_cases s with ⟨_, h⟩ | ⟨_, _, h⟩ <;> exact .inl ⟨_, _, _, h⟩
  case rdStatus => exact .inl ⟨_, _, _, rfl⟩
  case rdResult => exact .inl ⟨_, _, _, rfl⟩
  case rdOutcnt => exact .inl ⟨_, _, _, rfl⟩
  case rdAcc => exact .inl ⟨_, _, _, rfl⟩

/-- Everything an edge with `rst = 0` can do (R98). -/
theorem handshake_cases (e : Edge) (s : State) :
    (s.port = .ready ∧ e.cmdValid = true ∧ handshake e s = accept e.cmd s) ∨
    (∃ p, handshake e s = .next { s with port := p } ∧ (e.cmdValid = true → s.port ≠ .ready) ∧
      ((s.port = .inReset ∧ p = .ready) ∨ (s.port = .ready ∧ p = .ready) ∨
       (∃ r, s.port = .busy r ∧ p = if e.done then .responding r else .busy r) ∨
       (∃ r, s.port = .responding r ∧
         p = if e.rspReady then (if e.done then .ready else .recovering) else .responding r) ∨
       (s.port = .recovering ∧ p = if e.done then .ready else .recovering))) := by
  cases hp : s.port
  case inReset => exact .inr ⟨.ready, by simp only [handshake, hp], by simp, by simp⟩
  case ready =>
    cases hv : e.cmdValid
    case true => exact .inl ⟨rfl, rfl, by simp [handshake, hp, hv]⟩
    case false =>
      refine .inr ⟨.ready, ?_, by simp, by simp⟩
      simp only [handshake, hp, hv]
      simp [← hp]
  case busy r => exact .inr ⟨if e.done then .responding r else .busy r, by simp only [handshake, hp], by simp, by simp⟩
  case responding r =>
    exact .inr ⟨if e.rspReady then (if e.done then .ready else .recovering) else .responding r,
      by simp only [handshake, hp], by simp, by simp⟩
  case recovering => exact .inr ⟨if e.done then .ready else .recovering, by simp only [handshake, hp], by simp, by simp⟩

/-- Everything a step can do: nothing is to come, or reset, or an edge of the handshake. -/
theorem step_cases (s : State) :
    (s.edges = [] ∧ step s = .next s) ∨
    (∃ e es, s.edges = e :: es ∧ e.rst = true ∧ step s = .next (applyReset { s with edges := es })) ∨
    (∃ e es, s.edges = e :: es ∧ e.rst = false ∧ step s = handshake e { s with edges := es }) := by
  cases he : s.edges
  case nil => exact .inl ⟨rfl, by simp only [step, he]⟩
  case cons e es =>
    cases hr : e.rst
    case true => exact .inr (.inl ⟨e, es, rfl, hr, by simp [step, he, clockEdge, hr]⟩)
    case false => exact .inr (.inr ⟨e, es, rfl, hr, by simp [step, he, clockEdge, hr]⟩)

/-- A word at the port runs its command, or is refused as `ILLEGAL` (R84). -/
theorem accept_cases (w : Cmd) (s : State) :
    (∃ i, decode w = .ok i ∧ accept w s = exec i s) ∨
    (∃ x, decode w = .error x ∧ accept w s = .next (illegal w s)) := by
  cases h : decode w
  case ok i => exact .inl ⟨i, rfl, by simp [accept, h]⟩
  case error x => exact .inr ⟨x, rfl, by simp [accept, h]⟩

end Sys2Proof.Machine
end

