-- ==== Sys2Proof/Laws/PerInstr.lean ====
section
/-! SUPPORT. Facts about every command as syntax, one lemma per constructor. -/

namespace Sys2Proof.Laws.EncodeRow

/-- The word of a command lies in its row of the opcode table (R53), and the command is well formed. -/
def Statement (i : Instr) : Prop := i.wf = true ∧ (rowOf i).selects (encode i) = true

theorem nop : Statement .nop := ⟨rfl, by decide⟩
theorem decStart : Statement .decStart := ⟨rfl, by decide⟩
theorem decChar (c : Byte) : Statement (.decChar c) := ⟨rfl, by revert c; decide⟩
theorem decEnd : Statement .decEnd := ⟨rfl, by decide⟩
theorem truStart (a : Alg) : Statement (.truStart a) := by cases a <;> exact ⟨rfl, by decide⟩
theorem truByte (b : Byte) : Statement (.truByte b) := ⟨rfl, by revert b; decide⟩
theorem truExec : Statement .truExec := ⟨rfl, by decide⟩
theorem rdStatus : Statement .rdStatus := ⟨rfl, by decide⟩
theorem rdResult : Statement .rdResult := ⟨rfl, by decide⟩
theorem rdOutcnt : Statement .rdOutcnt := ⟨rfl, by decide⟩
theorem rdAcc : Statement .rdAcc := ⟨rfl, by decide⟩

end Sys2Proof.Laws.EncodeRow
end

