-- ==== Sys2Proof/Laws/Script.lean ====
section
/-! SUPPORT. The host's view: sequences of commands and their responses (R48, R99), and runs of edges. -/

namespace Sys2Proof.Machine

/-- A command that answers a next state with a response at the port is issued with that response. -/
theorem issue_eq {i : Instr} {s t : State} {r : Response} (h : exec i s = .next t)
    (hp : t.port = .busy r) : issue i s = some (t, r) := by
  simp [issue, h, hp]

@[simp] theorem issueAll_nil (s : State) : issueAll [] s = some (s, []) := rfl

/-- The first command is issued, then the rest in the state it left. -/
theorem issueAll_cons {i : Instr} {is : List Instr} {s t : State} {r : Response}
    (h : issue i s = some (t, r)) :
    issueAll (i :: is) s = (issueAll is t).map fun p => (p.1, r :: p.2) := by
  simp [issueAll, h]

/-- Two sequences one after the other. -/
theorem issueAll_append {is js : List Instr} {s t u : State} {rs qs : List Response}
    (h : issueAll is s = some (t, rs)) (h' : issueAll js t = some (u, qs)) :
    issueAll (is ++ js) s = some (u, rs ++ qs) := by
  induction is generalizing s rs with
  | nil =>
    obtain ⟨rfl, rfl⟩ : s = t ∧ [] = rs := by simpa using h
    simpa using h'
  | cons i is ih =>
    cases hi : issue i s with
    | none => simp [issueAll, hi] at h
    | some p =>
      simp only [issueAll, hi, Option.map_eq_some_iff, Prod.mk.injEq] at h
      obtain ⟨⟨v, ws⟩, hv, rfl, rfl⟩ := h
      simp [issueAll, hi, ih hv]

/-- One step, then the rest of the run. -/
theorem run_succ {s t : State} (k : Nat) (h : step s = .next t) :
    core.run (k + 1) s = core.run k t := by
  have h' : core.step s = .next t := h
  simp only [Host.Core.run, h']

/-- A run in two parts. -/
theorem run_add {s t : State} {j : Nat} (k : Nat) (h : core.run j s = .next t) :
    core.run (j + k) s = core.run k t := by
  induction j generalizing s with
  | zero =>
    obtain rfl : s = t := by injection h
    rw [Nat.zero_add]
  | succ j ih =>
    rw [Nat.add_right_comm]
    cases hs : step s with
    | next u => rw [run_succ _ hs]; rw [run_succ _ hs] at h; exact ih h
    | fault r =>
      have h' : core.step s = .fault r := hs
      simp [Host.Core.run, h'] at h
    | refused r =>
      have h' : core.step s = .refused r := hs
      simp [Host.Core.run, h'] at h

theorem recoveryEdges_length (n : Nat) : (recoveryEdges n).length = n := by
  cases n <;> simp [recoveryEdges]

/-- How many edges a command takes at the signal level. -/
theorem commandEdges_length (w : Cmd) (wait hold back : Nat) :
    (commandEdges w wait hold back).length = wait + hold + back + 3 := by
  simp [commandEdges, recoveryEdges_length]; omega

end Sys2Proof.Machine
end

