-- ==== Sys2Proof/Tests/Slice0.lean ====
section
/-! SUPPORT. The model's own tests: the well-formedness smoke test, words of the spec decoded, one step of
each command against a vector of 95_test_vectors.md, and a witness for the hypotheses of each
statement. -/

namespace Sys2Proof.Tests

open Sys2Proof.Machine

/-! ## Well-formedness: an ill-formed term for the check, which it refuses (R60) -/

theorem test_digest_of_19_bytes_refused : digestFits .sha1 (List.replicate 19 0) = false := by decide
theorem test_digest_of_21_bytes_refused : digestFits .sha1 (List.replicate 21 0) = false := by decide
theorem test_digest_of_17_bytes_refused : digestFits .md5 (List.replicate 17 0) = false := by decide
theorem test_digest_of_20_bytes_fits : digestFits .sha1 (List.replicate 20 0) = true := by decide
theorem test_digest_of_16_bytes_fits : digestFits .md5 (List.replicate 16 0) = true := by decide

/-! ## Decoding: words written out bit by bit from R51 to R53 -/

theorem test_decode_nop : decode 0b0000000000000000 = .ok .nop := by decide
theorem test_decode_dec_start : decode 0b0001000000000000 = .ok .decStart := by decide
theorem test_decode_dec_char : decode 0b0010000001001101 = .ok (.decChar 0x4D) := by decide
theorem test_decode_dec_end : decode 0b0011000000000000 = .ok .decEnd := by decide
theorem test_decode_tru_start_sha1 : decode 0b0100000000000000 = .ok (.truStart .sha1) := by decide
theorem test_decode_tru_start_md5 : decode 0b0100000100000000 = .ok (.truStart .md5) := by decide
theorem test_decode_tru_byte : decode 0b0101000010101011 = .ok (.truByte 0xAB) := by decide
theorem test_decode_tru_exec : decode 0b0110000000000000 = .ok .truExec := by decide
theorem test_decode_rd_status : decode 0b0111000000000000 = .ok .rdStatus := by decide
theorem test_decode_rd_result : decode 0b0111000100000000 = .ok .rdResult := by decide
theorem test_decode_rd_outcnt : decode 0b0111001000000000 = .ok .rdOutcnt := by decide
theorem test_decode_rd_acc : decode 0b0111001100000000 = .ok .rdAcc := by decide

/-- The reserved words of T-CTL-10 to T-CTL-17, T-DEC-S8, T-TRU-S9 and T-TRU-S10. -/
theorem test_decode_reserved :
    [0x0001, 0x1001, 0x3100, 0x6080, 0x7400, 0x7001, 0x8000, 0xFFFF, 0x2100, 0x4200, 0x4001].map decode =
      [.error .data, .error .data, .error .sub, .error .data, .error .sub, .error .data, .error .opcode,
       .error .opcode, .error .sub, .error .sub, .error .data] := by decide

/-! ## One step of each command -/

/-- The response of one command in one state. -/
def answer (i : Instr) (s : State) : Option Response := (issue i s).map Prod.snd

/-- DEC registers after one command in one state. -/
def decAfter (i : Instr) (s : State) : Option DecRegs := (issue i s).map fun p => p.1.dec

/-- TRU registers after one command in one state. -/
def truAfter (i : Instr) (s : State) : Option TruRegs := (issue i s).map fun p => p.1.tru

/-- A decode transaction with `NBITS` residual bits `ACC`. -/
def decoding (acc : BitVec 7) (nbits : BitVec 3) (outcnt : BitVec 32) : State :=
  { State.reset with dec := { DecRegs.reset with dstate := .active, acc := acc, nbits := nbits, outcnt := outcnt } }

/-- A decode transaction that failed on the byte `c`. -/
def failed (c : Byte) : State :=
  { State.reset with dec := { DecRegs.reset with dstate := .error, errchar := c, derr := true } }

/-- A digest being loaded, with its first bytes. -/
def loading (a : Alg) (ds : List Byte) : State :=
  { State.reset with tru := { TruRegs.reset with
      tload := true, alg := a, dcnt := BitVec.ofNat 5 ds.length,
      dbuf := Vector.ofFn fun i => ds.getD i.val 0 } }

/-- The `n` bytes of a digest that the spec writes as one hex string, `d_0` first (R60). -/
def digestOf (n hex : Nat) : List Byte :=
  (List.range n).map fun k => BitVec.ofNat 8 (hex / 256 ^ (n - 1 - k))

/-- The digest of T-TRU-2. -/
def rfcDigest : List Byte := digestOf 20 0x75a48a19d4cbe100644e8ac1397eea747a2d33ab

/-- The digest of T-TRU-18. -/
def md5Digest : List Byte := digestOf 16 0x101112131415161718191a1b1c1d1e0e

/-- T-CTL-1. -/
theorem test_nop : answer .nop State.reset = some ⟨.ok, 0⟩ := by decide

/-- T-DEC-S6. -/
theorem test_dec_start : decAfter .decStart (failed 0x31) = some (decoding 0 0 0).dec := by decide

/-- 95_test_vectors.md, 2.2, row W: a byte of 7 old bits and 1 new. -/
theorem test_dec_char_emits :
    answer (.decChar 0x57) (decoding 0b0110111 7 1) = some ⟨.ok, 0x0000016F⟩ ∧
    decAfter (.decChar 0x57) (decoding 0b0110111 7 1) = some (decoding 0b0110 4 2).dec := by decide

/-- T-DEC-S10: the count wraps. -/
theorem test_dec_char_count_wraps :
    answer (.decChar 0x41) (decoding 0 7 0xFFFFFFFF) = some ⟨.ok, 0x00000100⟩ ∧
    decAfter (.decChar 0x41) (decoding 0 7 0xFFFFFFFF) = some (decoding 0 4 0).dec := by decide

/-- T-DEC-S2, T-DEC-35, and T-DEC-4's `DEC_END`. -/
theorem test_dec_end :
    answer .decEnd State.reset = some ⟨.stateErr, 0⟩ ∧
    answer .decEnd (failed 0x31) = some ⟨.decErr, 0x31⟩ ∧
    answer .decEnd (decoding 0 2 1) = some ⟨.ok, 1⟩ := by decide

/-- T-TRU-S7. -/
theorem test_tru_start :
    truAfter (.truStart .md5) (loading .sha1 (md5Digest)) =
      some { (loading .sha1 md5Digest).tru with alg := .md5, dcnt := 0 } := by decide

/-- R71's example, and the 20th byte of T-TRU-2. -/
theorem test_tru_byte :
    answer (.truByte 0x75) (loading .sha1 []) = some ⟨.ok, 1⟩ ∧
    truAfter (.truByte 0xAB) (loading .sha1 (rfcDigest.take 19)) = some (loading .sha1 rfcDigest).tru := by
  decide

/-- T-TRU-S4, T-TRU-S5. -/
theorem test_tru_byte_full :
    answer (.truByte 0) (loading .md5 md5Digest) = some ⟨.stateErr, 0⟩ ∧
    answer (.truByte 0) (loading .sha1 rfcDigest) = some ⟨.stateErr, 0⟩ := by decide

/-- T-TRU-2. -/
theorem test_tru_exec_sha1 :
    answer .truExec (loading .sha1 rfcDigest) = some ⟨.ok, 0x41397EEA⟩ ∧
    (truAfter .truExec (loading .sha1 rfcDigest)).map (fun t => (t.offset, t.wrap)) =
      some (11, false) := by decide

/-- T-TRU-18: the window wraps. -/
theorem test_tru_exec_md5_wraps :
    answer .truExec (loading .md5 md5Digest) = some ⟨.ok, 0x1E0E1011⟩ ∧
    (truAfter .truExec (loading .md5 md5Digest)).map (fun t => (t.offset, t.wrap)) =
      some (14, true) := by decide

/-- P5, row 16: `ILL` set, three SHA-1 bytes loaded, a transaction open. -/
theorem test_rd_status :
    answer .rdStatus { loading .sha1 [0xAA, 0xAA, 0xAA] with dec := (decoding 0 0 0).dec, ill := true } =
      some ⟨.ok, 0x200D0001⟩ := by decide

/-- T-TRU-20's STATUS, `0x1FC20000`. -/
theorem test_rd_status_wrapped :
    answer .rdStatus { State.reset with tru := { TruRegs.reset with
      alg := .md5, dcnt := 16, offset := 15, wrap := true, tvalid := true } } =
      some ⟨.ok, 0x1FC20000⟩ := by decide

/-- R78's example. -/
theorem test_rd_result :
    answer .rdResult { State.reset with tru := { TruRegs.reset with result := 0x41397EEA } } =
      some ⟨.ok, 0x41397EEA⟩ := by decide

/-- R79's example. -/
theorem test_rd_outcnt : answer .rdOutcnt (decoding 0 0 3) = some ⟨.ok, 3⟩ := by decide

/-- R80's example (T-CTL-6). -/
theorem test_rd_acc : answer .rdAcc (decoding 0b0111010 7 1) = some ⟨.ok, 0x0000073A⟩ := by decide

/-- R84: a reserved word at the port. -/
theorem test_reserved_word : accept 0x2100 (decoding 0b01100 5 0) =
    .next { decoding 0b01100 5 0 with ill := true, port := .busy ⟨.illegal, 0x2100⟩ } := rfl

/-! ## The host's script (R59, R60) -/

theorem test_assemble_lines :
    assemble "DEC_START ; open\nDEC_CHAR 'M'\nDEC_CHAR 0x31\nTRU_START MD5\n.word 0x42F0\nRESET".toList =
      some [.word 0x1000, .word 0x204D, .word 0x2031, .word 0x4100, .word 0x42F0, .reset] := by decide

theorem test_assemble_dec_str :
    assemble "DEC.STR \"ME\"".toList = some [.word 0x1000, .word 0x204D, .word 0x2045, .word 0x3000] := by
  decide

theorem test_assemble_digest_hex :
    assemble "TRU.DIGEST MD5, 000102030405060708090a0b0c0d0e0f".toList =
      (truDigest .md5 ((List.range 16).map (BitVec.ofNat 8))).map wordsOf := by decide

theorem test_assemble_digest_count_refused :
    assemble "TRU.DIGEST SHA1, 000102030405060708090a0b0c0d0e0f".toList = none := by decide

/-! ## Witnesses: a state and operands that meet the hypotheses of each statement together -/

/-- An edge at which the word is offered while `rst` is 1. -/
def resetOffer : Edge := { offer 0x2041 with rst := true }

theorem witness_ResetEdgeThenReady : ∃ (s : State) (e f : Edge) (es : List Edge),
    s.edges = e :: f :: es ∧ e.rst = true ∧ f.rst = false ∧ s.ill = true :=
  ⟨{ failed 0x31 with ill := true, edges := [resetOffer, quiet] }, resetOffer, quiet, [], by decide⟩

/-- An edge at which the host is ready to take a response. -/
def hostReady : Edge := { quiet with rspReady := true }

/-- The host is ready all along while the block is busy, and reset comes with the response on the pins. -/
theorem witness_ResetWinsOverCommand : ∃ (s : State) (a e : Edge) (waits rest es : List Edge),
    s.port = .ready ∧ s.edges = a :: (waits ++ (rest ++ e :: es)) ∧ a.rst = false ∧ a.cmdValid = true ∧
      (∀ f ∈ waits, f.rst = false ∧ f.done = false) ∧ (∀ f ∈ rest, f.rst = false) ∧
      (∀ f ∈ rest.tail, f.rspReady = false) ∧ TruInv s.tru ∧ e.rst = true :=
  ⟨{ decoding 0 0 0 with edges :=
      [offer 0x2041, hostReady, { hostReady with done := true }, quiet, assertReset] },
    offer 0x2041, assertReset, [hostReady], [{ hostReady with done := true }, quiet], [],
    rfl, rfl, rfl, rfl, by decide, by decide, by decide, by decide, rfl⟩

theorem witness_OpcodeTableIsTheDecoder :
    (∃ w i, decode w = .ok i) ∧ (∃ (w : Cmd) (r : Row), r ∈ opcodeTable ∧ r.selects w = true) :=
  ⟨⟨0x41FF &&& 0xFF00, .truStart .md5, by decide⟩, 0x4100, rowOf (.truStart .sha1), by decide, by decide⟩

/-- One reserved word under each clause of R55, at the boundary of its range. -/
theorem witness_ReservedWordsExactly :
    ReservedWord 0x8000 ∧ ReservedWord 0x0001 ∧ ReservedWord 0x0100 ∧ ReservedWord 0x6001 ∧
    ReservedWord 0x2100 ∧ ReservedWord 0x5F00 :=
  ⟨by decide, by decide, by decide, by decide, by decide, by decide⟩

theorem witness_ReservedWordsExactly_with_selectors :
    ReservedWord 0x4200 ∧ ReservedWord 0x4101 ∧ ReservedWord 0x7400 ∧ ReservedWord 0x7301 ∧ ¬ ReservedWord 0x7300 ∧ ¬ ReservedWord 0x4100 :=
  ⟨by decide, by decide, by decide, by decide, by decide, by decide⟩

theorem witness_DecodeEncodeAgree : (Instr.decChar 0xFF).wf = true := rfl

theorem witness_EncodeDecodeAgree : decode 0x50FF = .ok (.truByte 0xFF) := by decide

theorem witness_StepRunsDecodedCommand : ∃ (s : State) (e : Edge) (es : List Edge) (i : Instr),
    s.edges = e :: es ∧ e.rst = false ∧ e.cmdValid = true ∧ s.cmdReady = true ∧ decode e.cmd = .ok i ∧
      i.wf = true :=
  ⟨{ State.reset with edges := [offer 0x2041] }, offer 0x2041, [], .decChar 0x41, by decide⟩

theorem witness_ReservedWordStep : ∃ (s : State) (e : Edge) (es : List Edge) (x : Reserved),
    s.edges = e :: es ∧ e.rst = false ∧ e.cmdValid = true ∧ s.cmdReady = true ∧ decode e.cmd = .error x :=
  ⟨{ State.reset with edges := [offer 0xFFFF] }, offer 0xFFFF, [], .opcode, by decide⟩

/-- Every clause of R63, the emitting ones at 3 and 7 residual bits and the others at 0 and 2. -/
theorem witness_DecCharStep :
    State.reset.dec.dstate = .idle ∧ (failed 0x31).dec.dstate = .error ∧
    ((decoding 0 0 0).dec.dstate = .active ∧ alpha 0x31 = none) ∧
    ((decoding 0b011 3 4).dec.dstate = .active ∧ alpha 0x42 = some 1 ∧ 3 ≤ (decoding 0b011 3 4).dec.nbits.toNat) ∧
    (alpha 0x37 = some 31 ∧ 3 ≤ (decoding 0 7 0).dec.nbits.toNat) ∧
    (alpha 0x7A = some 25 ∧ (decoding 0b01 2 1).dec.nbits.toNat < 3) ∧
    (alpha 0x41 = some 0 ∧ (decoding 0 0 0).dec.nbits.toNat < 3) := by decide

theorem witness_DecEndClosesTransaction :
    State.reset.dec.dstate = .idle ∧ (failed 0x31).dec.dstate = .error ∧
    (decoding 0b01 2 1).dec.dstate = .active := by decide

/-- `"ME"` (T-DEC-4), for EmissionLaw and both parts of TransactionLaw (with `'='` after it). -/
theorem witness_EmissionLaw_TransactionLaw :
    ([0x4D, 0x45] : List Byte).map alpha = ([12, 4] : List Quintet).map some ∧ alpha 0x3D = none := by decide

theorem witness_CaseDoesNotMatter :
    ((0x41 : Byte) ≤ 0x5A ∧ (0x5A : Byte) ≤ 0x5A) ∧
    List.Forall₂ SameButCase [0x61, 0x42, 0x32, 0x3D] [0x41, 0x62, 0x32, 0x3D] := by
  exact ⟨by decide, .cons (by decide) (.cons (by decide) (.cons (by decide) (.cons (by decide) .nil)))⟩

theorem witness_FirstErrorWins :
    ((decoding 0 0 0).dec.dstate = .active ∧ alpha 0x30 = none) ∧ (failed 0x31).dec.dstate = .error := by
  decide

/-- `"ME"` and `"MF"`, which differ in a dropped bit only (T-DEC-4, T-DEC-5). -/
theorem witness_NoLengthOrTrailingCheck :
    ([0x4D, 0x45] : List Byte).map alpha = ([12, 4] : List Quintet).map some ∧
    ([0x4D, 0x46] : List Byte).map alpha = ([12, 5] : List Quintet).map some ∧
    streamValue [12, 4] ≠ streamValue [12, 5] ∧
    streamValue [12, 4] / 2 ^ (5 * 2 % 8) = streamValue [12, 5] / 2 ^ (5 * 2 % 8) := by decide

/-- Both refusals of R71 and the store, at the first and the last byte. -/
theorem witness_TruByteStoresNext :
    State.reset.tru.tload = false ∧
    (loading .md5 md5Digest).tru.dcnt.toNat = Config.digestLen (loading .md5 md5Digest).tru.alg ∧
    ((loading .sha1 []).tru.tload = true ∧ (loading .sha1 []).tru.dcnt.toNat ≠ 20 ∧
      (loading .sha1 []).tru.dcnt.toNat < 20) ∧
    ((loading .sha1 (rfcDigest.take 19)).tru.tload = true ∧
      (loading .sha1 (rfcDigest.take 19)).tru.dcnt.toNat = 19) := by decide

/-- A state that R27 rules out: 21 bytes counted. -/
theorem witness_OnlyStoreBeyondBufferFaults :
    execTruByte 0 { State.reset with tru := { TruRegs.reset with tload := true, dcnt := 21 } } =
      .fault (.dbufIndex 21) := rfl

/-- TruExecTruncates and WindowWrapsOnlyForMd5, for both algorithms and each refusal. -/
theorem witness_TruExecTruncates :
    State.reset.tru.tload = false ∧
    (loading .sha1 (rfcDigest.take 3)).tru.dcnt.toNat ≠ Config.digestLen .sha1 ∧
    ((loading .sha1 rfcDigest).tru.tload = true ∧
      (loading .sha1 rfcDigest).tru.dcnt.toNat = Config.digestLen .sha1) ∧
    ((loading .md5 md5Digest).tru.tload = true ∧
      (loading .md5 md5Digest).tru.dcnt.toNat = Config.digestLen .md5) := by decide

theorem witness_WindowWrapsOnlyForMd5 : ∃ s : State, s.tru.tload = true ∧
    s.tru.dcnt.toNat = Config.digestLen s.tru.alg ∧ (truncOffset s.tru).toNat = 14 :=
  ⟨loading .md5 md5Digest, by decide⟩

theorem witness_DigestTransaction :
    rfcDigest.length = Config.digestLen .sha1 ∧ md5Digest.length = Config.digestLen .md5 ∧
    (rfcDigest.take 19).length ≠ Config.digestLen .sha1 := by decide

theorem witness_StaleDigestBytesUnobservable : ∃ s u : State, TruInv s.tru ∧
    u = { s with tru := { s.tru with dbuf := u.tru.dbuf } } ∧ u ≠ s ∧
    (∀ k : Fin 20, k.val < s.tru.dcnt.toNat → u.tru.dbuf[k] = s.tru.dbuf[k]) :=
  ⟨loading .sha1 [0x75], { loading .sha1 [0x75] with
    tru := { (loading .sha1 [0x75]).tru with dbuf := (loading .sha1 rfcDigest).tru.dbuf } },
    by decide, by decide, by decide, by decide⟩

theorem witness_ReadsAreIdempotent :
    Instr.rdAcc ∈ [Instr.nop, .rdStatus, .rdResult, .rdOutcnt, .rdAcc] := by decide

/-- Two states that differ in `DBUF` alone, which the reads do not show. -/
theorem witness_ReadsShowEveryRegister : ∃ s u : State, u ≠ s ∧
    ∀ i ∈ [Instr.rdStatus, .rdResult, .rdOutcnt, .rdAcc],
      (issue i s).map Prod.snd = (issue i u).map Prod.snd :=
  ⟨State.reset, { State.reset with tru := { TruRegs.reset with dbuf := Vector.replicate 20 1 } }, by decide⟩

theorem witness_StateErrExactly :
    StateErrCond (.decChar 0x41) State.reset ∧ StateErrCond .decEnd State.reset ∧
    StateErrCond (.truByte 0) State.reset ∧ StateErrCond (.truByte 0) (loading .md5 md5Digest) ∧
    StateErrCond .truExec State.reset ∧ StateErrCond .truExec (loading .sha1 []) := by
  unfold StateErrCond; decide

theorem witness_DecErrExactly :
    DecErrCond (.decChar 0x42) (failed 0x31) ∧ DecErrCond (.decChar 0x31) (decoding 0 0 0) ∧
    DecErrCond .decEnd (failed 0x31) := by
  unfold DecErrCond; decide

theorem witness_OneResponsePerCommand : ∃ t v : State,
    exec (.decChar 0x31) (decoding 0 0 0) = .next t ∧ accept 0x8000 State.reset = .next v :=
  ⟨_, _, rfl, rfl⟩

theorem witness_DecCommandsStayInDec : ∃ s u : State, s.dec = u.dec ∧ s.tru ≠ u.tru ∧ s.ill ≠ u.ill :=
  ⟨State.reset, { loading .md5 md5Digest with ill := true }, by decide⟩

theorem witness_TruCommandsStayInTru : ∃ s u : State, s.tru = u.tru ∧ TruInv s.tru ∧ s.dec ≠ u.dec :=
  ⟨loading .sha1 rfcDigest, { loading .sha1 rfcDigest with dec := (failed 0x31).dec }, by decide⟩

theorem witness_TransactionsArePure : ∃ is : List Instr, truDigest .md5 md5Digest = some is :=
  ⟨_, rfl⟩

/-- A state in the middle of both transactions meets every invariant, and its step answers. -/
theorem witness_StepKeepsInvariants : ∃ s t : State, DecInv s.dec ∧ TruInv s.tru ∧ UnitInv s ∧ PortInv s ∧
    step s = .next t :=
  ⟨{ loading .sha1 (rfcDigest.take 3) with dec := (decoding 0b01 2 1).dec, edges := [offer 0x2041] }, _,
    by decide, by decide, by decide, (fun _ h => by cases h), rfl⟩

/-- A response in flight that is `ILLEGAL`, with `ILL` set, meets the port invariant. -/
theorem witness_StepKeepsPortInvariant : ∃ s t : State, Inv s ∧ (∃ r, heldResponse s.port = some r) ∧
    step s = .next t := by
  refine ⟨{ State.reset with port := .busy ⟨.illegal, 0xFFFF⟩, ill := true, edges := [finish] }, _,
    ⟨by decide, by decide, ?_⟩, ⟨_, rfl⟩, rfl⟩
  intro r h
  obtain rfl : _ = r := Option.some.inj h
  decide

theorem witness_IllIsSticky : ∃ (s t : State) (e : Edge) (es : List Edge), step s = .next t ∧
    s.edges = e :: es ∧ e.rst = false ∧ e.cmdValid = true ∧ s.cmdReady = true ∧ ReservedWord e.cmd :=
  ⟨{ State.reset with edges := [offer 0x8000] }, _, offer 0x8000, [], rfl, rfl, rfl, rfl, rfl,
    by decide⟩

theorem witness_FlagsChangeOnlyAsListed : ∃ t : State,
    exec .truExec (loading .md5 md5Digest) = .next t ∧ t.tru.wrap = true ∧ t.tru.tvalid = true ∧
      t.tru.tload = false :=
  ⟨_, rfl, by decide, by decide, by decide⟩

theorem witness_ResponsePins : ∃ s : State, s.port = .responding ⟨.decErr, 0x31⟩ ∧ s.rspValid = true ∧
    s.rspCode = some 0b01 :=
  ⟨{ failed 0x31 with port := .responding ⟨.decErr, 0x31⟩ }, by decide⟩

theorem witness_IdleBlockKeepsState : ∃ (s u : State) (e : Edge), s.edges = [e] ∧ e.rst = false ∧
    e.cmdValid = false ∧ s.cmdReady = true ∧ u.edges = [] :=
  ⟨{ decoding 0b01 2 1 with edges := [quiet] }, failed 0x31, quiet, by decide⟩

theorem witness_NotReadyAcceptsNothing : ∃ (s : State) (e : Edge) (es : List Edge), s.cmdReady = false ∧
    s.edges = e :: es ∧ e.rst = false :=
  ⟨{ State.reset with port := .responding ⟨.ok, 0⟩, edges := [offer 0x1000] }, offer 0x1000, [], by decide⟩

/-- A response becomes valid at an edge where the host is ready already; and one is taken without
`cmd_ready` rising at that edge. -/
theorem witness_CommandsAndResponsesAlternate :
    (∃ s t : State, step s = .next t ∧ s.port = .busy ⟨.ok, 0⟩ ∧ t.port = .responding ⟨.ok, 0⟩ ∧
      s.edges = [{ hostReady with done := true }]) ∧
    (∃ s t : State, step s = .next t ∧ s.port = .responding ⟨.ok, 0⟩ ∧ t.port = .recovering ∧
      s.edges = [hostReady]) :=
  ⟨⟨{ State.reset with port := .busy ⟨.ok, 0⟩, edges := [{ hostReady with done := true }] }, _, rfl, rfl,
      rfl, rfl⟩,
    ⟨{ State.reset with port := .responding ⟨.ok, 0⟩, edges := [hostReady] }, _, rfl, rfl, rfl, rfl⟩⟩

theorem witness_UntakenResponseStopsBlock : ∃ (s : State) (r : Response) (hs es : List Edge),
    s.port = .responding r ∧ s.edges = hs ++ es ∧ hs ≠ [] ∧
      ∀ e ∈ hs, e.rst = false ∧ e.rspReady = false :=
  ⟨{ State.reset with port := .responding ⟨.ok, 0⟩, edges := [offer 0x1000, quiet] }, ⟨.ok, 0⟩,
    [offer 0x1000, quiet], [], by decide⟩

/-- A command whose host is ready all along, and whose `cmd_ready` rises two edges after the take. -/
theorem witness_SignalLevelCommandCompletes : ∃ (s t : State) (r : Response), s.port = .ready ∧
    s.edges = offer 0x204D :: ([hostReady] ++ { hostReady with done := true } ::
      ([quiet] ++ hostReady :: ([quiet, finish] ++ [quiet]))) ∧
    CommandTraffic (offer 0x204D) { hostReady with done := true } hostReady [hostReady] [quiet]
      [quiet, finish] ∧
    accept 0x204D s = .next t ∧ t.port = .busy r :=
  ⟨{ decoding 0 0 0 with edges := [offer 0x204D, hostReady, { hostReady with done := true }, quiet,
      hostReady, quiet, finish, quiet] }, _, ⟨.ok, 0⟩, rfl, rfl,
    ⟨by decide, by decide, by decide, by decide, by decide,
      .inr ⟨rfl, [quiet], finish, by decide⟩⟩, rfl, rfl⟩

/-- And one whose `cmd_ready` rises at the edge of the take. -/
theorem witness_SignalLevelCommandCompletes_at_once :
    CommandTraffic (offer 0x204D) finish { hostReady with done := true } [] [] [] :=
  ⟨by decide, by decide, by decide, by decide, by decide, .inl ⟨rfl, rfl⟩⟩

end Sys2Proof.Tests
end

section
/-! SUPPORT. The bit stream of the document (R38, R39, R64), one character at a time. -/

namespace Sys2Proof.Machine

theorem streamValue_concat (vs : List Quintet) (v : Quintet) :
    streamValue (vs ++ [v]) = streamValue vs * 32 + v.toNat := by
  simp [streamValue]

/-- A byte that is complete already does not change when the stream grows. -/
theorem streamByte_concat {vs : List Quintet} (v : Quintet) {k : Nat}
    (h : 8 * (k + 1) ≤ 5 * vs.length) : streamByte (vs ++ [v]) k = streamByte vs k := by
  have hv := v.isLt
  have hexp : 5 * (vs ++ [v]).length - 8 * (k + 1) = 5 + (5 * vs.length - 8 * (k + 1)) := by
    simp only [List.length_append, List.length_singleton]; omega
  have hdiv : (streamValue vs * 32 + v.toNat) / 2 ^ 5 = streamValue vs := by omega
  rw [streamByte, streamByte, hexp, streamValue_concat, Nat.pow_add, ← Nat.div_div_eq_div_mul, hdiv]

/-- One more character completes one more byte when three or more bits were left over. -/
theorem streamBytes_concat (vs : List Quintet) (v : Quintet) :
    streamBytes (vs ++ [v]) = streamBytes vs ++
      if 3 ≤ 5 * vs.length % 8 then [streamByte (vs ++ [v]) (5 * vs.length / 8)] else [] := by
  have hold : (List.range (5 * vs.length / 8)).map (streamByte (vs ++ [v])) = streamBytes vs :=
    List.map_congr_left fun k hk => streamByte_concat v (by have := List.mem_range.1 hk; omega)
  rw [streamBytes, List.length_append, List.length_singleton]
  split
  case isTrue h =>
    have hlen : 5 * (vs.length + 1) / 8 = 5 * vs.length / 8 + 1 := by omega
    rw [hlen, List.range_succ, List.map_append, hold, List.map_singleton]
  case isFalse h =>
    have hlen : 5 * (vs.length + 1) / 8 = 5 * vs.length / 8 := by omega
    rw [hlen, hold, List.append_nil]

/-! ## The responses that carry the bytes (R58, R64) -/

theorem emitWord_eq_ofNat (b : Byte) : emitWord b = BitVec.ofNat 32 (256 + b.toNat) := by
  have := b.isLt
  apply BitVec.eq_of_toNat_eq
  rw [emitWord_toNat, BitVec.toNat_ofNat]; omega

theorem emissionResponse_eq_emit (vs : List Quintet) {k : Nat} (h : 3 ≤ 5 * k % 8) :
    emissionResponse vs k = { code := .ok, data := emitWord (streamByte vs (5 * k / 8)) } := by
  rw [emissionResponse, if_pos (by omega), emitWord_eq_ofNat]

theorem emissionResponse_eq_keep (vs : List Quintet) {k : Nat} (h : 5 * k % 8 < 3) :
    emissionResponse vs k = { code := .ok, data := 0 } := by
  rw [emissionResponse, if_neg (by omega)]

@[simp] theorem emissionResponse_code (vs : List Quintet) (k : Nat) :
    (emissionResponse vs k).code = .ok := by
  unfold emissionResponse; split <;> rfl

theorem code_of_mem_emissionResponses {vs : List Quintet} {r : Response}
    (h : r ∈ emissionResponses vs) : r.code = .ok := by
  obtain ⟨k, -, rfl⟩ := List.mem_map.1 h
  exact emissionResponse_code vs k

theorem emissionResponses_concat (vs : List Quintet) (v : Quintet) :
    emissionResponses (vs ++ [v]) =
      emissionResponses vs ++ [emissionResponse (vs ++ [v]) vs.length] := by
  have hold : (List.range vs.length).map (emissionResponse (vs ++ [v])) = emissionResponses vs := by
    refine List.map_congr_left fun k hk => ?_
    have hk := List.mem_range.1 hk
    rcases Nat.lt_or_ge (5 * k % 8) 3 with h | h
    · rw [emissionResponse_eq_keep _ h, emissionResponse_eq_keep _ h]
    · rw [emissionResponse_eq_emit _ h, emissionResponse_eq_emit _ h,
        streamByte_concat v (by omega)]
  rw [emissionResponses, List.length_append, List.length_singleton, List.range_succ, List.map_append,
    hold, List.map_singleton]

/-- The host reads back the byte that a response carries. -/
@[simp] theorem emitted_emitWord (b : Byte) :
    emitted { code := .ok, data := emitWord b } = some b := by
  revert b; decide

@[simp] theorem emitted_zero (c : Code) : emitted { code := c, data := 0 } = none := by
  simp [emitted]

/-- The bytes the host collects from the responses are the whole bytes of the stream (R64). -/
theorem filterMap_emitted_emissionResponses (vs : List Quintet) :
    (emissionResponses vs).filterMap emitted = streamBytes vs := by
  induction vs using List.reverseRecOn with
  | nil => rfl
  | append_singleton vs v ih =>
    rw [emissionResponses_concat, streamBytes_concat, List.filterMap_append, ih]
    rcases Nat.lt_or_ge (5 * vs.length % 8) 3 with h | h
    · rw [emissionResponse_eq_keep _ h, if_neg (by omega),
        List.filterMap_cons_none (emitted_zero _)]
      rfl
    · rw [emissionResponse_eq_emit _ h, if_pos h,
        List.filterMap_cons_some (emitted_emitWord _)]
      rfl

end Sys2Proof.Machine
end

section
/-! SUPPORT. A decode transaction (R16, R66): DEC after the alphabet characters of a stream, and the
responses of `DEC.STR`. -/

namespace Sys2Proof.Machine

/-! ## The characters of a string (R61) -/

/-- A byte string is of alphabet characters only, or has a first byte outside the alphabet. -/
theorem alphabet_or_offender (cs : List Byte) :
    (∃ vs : List Quintet, cs.map alpha = vs.map some) ∨
    ∃ (pre : List Byte) (vs : List Quintet) (c : Byte) (post : List Byte),
      cs = pre ++ c :: post ∧ pre.map alpha = vs.map some ∧ alpha c = none := by
  induction cs with
  | nil => exact .inl ⟨[], rfl⟩
  | cons d cs ih =>
    cases hd : alpha d with
    | none => exact .inr ⟨[], [], d, cs, rfl, rfl, hd⟩
    | some w =>
      obtain ⟨vs, h⟩ | ⟨pre, vs, c, post, rfl, h, hc⟩ := ih
      · exact .inl ⟨w :: vs, by simp [hd, h]⟩
      · exact .inr ⟨d :: pre, w :: vs, c, post, rfl, by simp [hd, h], hc⟩

section
variable {cs : List Byte} {vs : List Quintet} (h : cs.map alpha = vs.map some)
include h

theorem find?_offender_of_alphabet : cs.find? (fun c => (alpha c).isNone) = none := by
  rw [List.find?_eq_none]
  intro c hc
  have hmem : alpha c ∈ vs.map some := h ▸ List.mem_map_of_mem hc
  obtain ⟨v, -, hv⟩ := List.mem_map.1 hmem
  simp [← hv]

theorem filterMap_alpha_of_alphabet : cs.filterMap alpha = vs := by
  have hid : cs.filterMap alpha = (cs.map alpha).filterMap id := by simp [List.filterMap_map]
  rw [hid, h]
  simp [List.filterMap_map]

theorem base32_of_alphabet : base32 cs = .ok (streamBytes vs) := by
  rw [base32, find?_offender_of_alphabet h, filterMap_alpha_of_alphabet h]

theorem base32_of_offender {c : Byte} (hc : alpha c = none) (ds : List Byte) :
    base32 (cs ++ c :: ds) = .error c := by
  have hfind : (cs ++ c :: ds).find? (fun c => (alpha c).isNone) = some c := by
    simp [List.find?_append, find?_offender_of_alphabet h, hc]
  rw [base32, hfind]

end

/-! ## DEC within a transaction (R22, R63) -/

/-- DEC after `DEC_START` and the alphabet characters of the stream `vs` (R64). -/
def streamRegs (vs : List Quintet) : DecRegs :=
  { dstate := .active, acc := BitVec.ofNat 7 (streamValue vs % 2 ^ (5 * vs.length % 8)),
    nbits := BitVec.ofNat 3 (5 * vs.length % 8), outcnt := BitVec.ofNat 32 (5 * vs.length / 8),
    errchar := 0, derr := false }

theorem streamRegs_nbits_toNat (vs : List Quintet) :
    (streamRegs vs).nbits.toNat = 5 * vs.length % 8 := by
  simp only [streamRegs, BitVec.toNat_ofNat]; omega

/-- The residual bits are the last `NBITS` bits of the stream. -/
theorem streamRegs_acc_toNat (vs : List Quintet) :
    (streamRegs vs).acc.toNat = streamValue vs % 2 ^ (5 * vs.length % 8) := by
  have hpos := Nat.two_pow_pos (5 * vs.length % 8)
  have hle : 2 ^ (5 * vs.length % 8) ≤ 2 ^ 7 := Nat.pow_le_pow_right (by decide) (by omega)
  have hlt : streamValue vs % 2 ^ (5 * vs.length % 8) < 2 ^ 7 :=
    Nat.lt_of_lt_of_le (Nat.mod_lt _ hpos) hle
  simp only [streamRegs, BitVec.toNat_ofNat, Nat.mod_eq_of_lt hlt]

/-- The residual bits with the new group behind them are the last `NBITS + 5` bits of the longer
stream. -/
theorem shiftIn_streamRegs_toNat (vs : List Quintet) (v : Quintet) :
    (shiftIn (streamRegs vs).acc v).toNat =
      streamValue (vs ++ [v]) % 2 ^ (5 * vs.length % 8 + 5) := by
  have hv : v.toNat < 2 ^ 5 := v.isLt
  have hdiv : (streamValue vs * 32 + v.toNat) / 2 ^ 5 = streamValue vs := by omega
  rw [shiftIn_toNat, streamRegs_acc_toNat, streamValue_concat, Nat.pow_add, Nat.mul_comm (2 ^ _),
    Nat.mod_mul, hdiv]
  omega

/-- The byte that leaves DEC is the next byte of the stream. -/
theorem oldestByte_shiftIn_streamRegs (vs : List Quintet) (v : Quintet)
    (h : 3 ≤ 5 * vs.length % 8) :
    oldestByte (shiftIn (streamRegs vs).acc v) (5 * vs.length % 8 + 5) =
      streamByte (vs ++ [v]) (5 * vs.length / 8) := by
  have hexp : 5 * vs.length % 8 + 5 = (5 * vs.length % 8 - 3) + 8 := by omega
  have hpos : 5 * (vs.length + 1) - 8 * (5 * vs.length / 8 + 1) = 5 * vs.length % 8 - 3 := by omega
  apply BitVec.eq_of_toNat_eq
  rw [oldestByte_toNat, shiftIn_streamRegs_toNat, streamByte, List.length_append,
    List.length_singleton, hpos, hexp, Nat.add_sub_cancel, Nat.pow_add, Nat.mod_mul_right_div_self,
    BitVec.toNat_ofNat, Nat.mod_mod]

/-- The residual bits where no byte leaves DEC. -/
theorem setWidth_shiftIn_streamRegs (vs : List Quintet) (v : Quintet) (h : 5 * vs.length % 8 < 3) :
    (shiftIn (streamRegs vs).acc v).setWidth 7 = (streamRegs (vs ++ [v])).acc := by
  have hmod : 5 * (vs.length + 1) % 8 = 5 * vs.length % 8 + 5 := by omega
  have hlt := (streamRegs (vs ++ [v])).acc.isLt
  apply BitVec.eq_of_toNat_eq
  rw [streamRegs_acc_toNat, List.length_append, List.length_singleton, hmod] at hlt ⊢
  rw [BitVec.toNat_setWidth, shiftIn_streamRegs_toNat, Nat.mod_eq_of_lt hlt]

/-- The residual bits where a byte leaves DEC. -/
theorem residue_shiftIn_streamRegs (vs : List Quintet) (v : Quintet) (h : 3 ≤ 5 * vs.length % 8) :
    residue (shiftIn (streamRegs vs).acc v) (5 * vs.length % 8 - 3) =
      (streamRegs (vs ++ [v])).acc := by
  have hmod : 5 * (vs.length + 1) % 8 = 5 * vs.length % 8 - 3 := by omega
  apply BitVec.eq_of_toNat_eq
  rw [streamRegs_acc_toNat, List.length_append, List.length_singleton, hmod,
    residue_toNat _ (by omega), shiftIn_streamRegs_toNat,
    Nat.mod_mod_of_dvd _ (Nat.pow_dvd_pow 2 (by omega))]

/-- One more alphabet character: DEC goes on to the longer stream, and responds with its next byte if
it completes one (R63). -/
theorem feedGroup_streamRegs {s : State} {vs : List Quintet} (v : Quintet)
    (hs : s.dec = streamRegs vs) :
    feedGroup v s = { s with dec := streamRegs (vs ++ [v]),
                             port := .busy (emissionResponse (vs ++ [v]) vs.length) } := by
  have hn : s.dec.nbits.toNat = 5 * vs.length % 8 := by rw [hs, streamRegs_nbits_toNat]
  rcases Nat.lt_or_ge (5 * vs.length % 8) 3 with h | h
  · have hmod : 5 * (vs.length + 1) % 8 = 5 * vs.length % 8 + 5 := by omega
    have hdiv : 5 * (vs.length + 1) / 8 = 5 * vs.length / 8 := by omega
    rw [feedGroup_keep (by omega), emissionResponse_eq_keep _ h, hn, hs,
      setWidth_shiftIn_streamRegs vs v h]
    simp [respond, streamRegs, hmod, hdiv]
  · have hmod : 5 * (vs.length + 1) % 8 = 5 * vs.length % 8 - 3 := by omega
    have hdiv : 5 * (vs.length + 1) / 8 = 5 * vs.length / 8 + 1 := by omega
    rw [feedGroup_emit (by omega), emissionResponse_eq_emit _ h, hn, hs,
      residue_shiftIn_streamRegs vs v h, oldestByte_shiftIn_streamRegs vs v h]
    simp [respond, streamRegs, hmod, hdiv, BitVec.ofNat_add]

/-! ## The commands of a transaction -/

/-- One command alone. -/
theorem issueAll_singleton {i : Instr} {s t : State} {r : Response} (h : issue i s = some (t, r)) :
    issueAll [i] s = some (t, [r]) := by
  rw [issueAll_cons h]; rfl

theorem issue_decStart (s : State) :
    issue .decStart s = some
      ({ s with dec := streamRegs [], port := .busy { code := .ok, data := 0 } },
       { code := .ok, data := 0 }) := rfl

theorem issue_decChar_of_group {s : State} {vs : List Quintet} {c : Byte} {v : Quintet}
    (hs : s.dec = streamRegs vs) (hc : alpha c = some v) :
    issue (.decChar c) s = some
      ({ s with dec := streamRegs (vs ++ [v]),
                port := .busy (emissionResponse (vs ++ [v]) vs.length) },
       emissionResponse (vs ++ [v]) vs.length) := by
  refine issue_eq ?_ rfl
  have hact : s.dec.dstate = .active := by rw [hs]; rfl
  rw [← feedGroup_streamRegs v hs]
  simp only [exec, execDecChar, hact, hc]

theorem issue_decChar_of_offender {s : State} {c : Byte} (hs : s.dec.dstate = .active)
    (hc : alpha c = none) :
    issue (.decChar c) s = some (failDecode c s, { code := .decErr, data := c.setWidth 32 }) := by
  refine issue_eq ?_ rfl
  simp only [exec, execDecChar, hs, hc]

theorem issue_decChar_of_error {s : State} (c : Byte) (hs : s.dec.dstate = .error) :
    issue (.decChar c) s = some (respondDecErr s.dec.errchar s,
      { code := .decErr, data := s.dec.errchar.setWidth 32 }) := by
  refine issue_eq ?_ rfl
  simp only [exec, execDecChar, hs]

theorem issue_decEnd_of_active {s : State} (hs : s.dec.dstate = .active) :
    issue .decEnd s = some
      ({ s with dec := { s.dec with acc := 0, nbits := 0, dstate := .idle },
                port := .busy { code := .ok, data := s.dec.outcnt } },
       { code := .ok, data := s.dec.outcnt }) := by
  refine issue_eq ?_ rfl
  simp only [exec, execDecEnd, hs]
  rfl

theorem issue_decEnd_of_error {s : State} (hs : s.dec.dstate = .error) :
    issue .decEnd s = some
      (respondDecErr s.dec.errchar { s with dec := { s.dec with dstate := .idle } },
       { code := .decErr, data := s.dec.errchar.setWidth 32 }) := by
  refine issue_eq ?_ rfl
  simp only [exec, execDecEnd, hs]

/-- The alphabet characters after a `DEC_START`. -/
theorem issueAll_decChars_of_alphabet {s : State} (hs : s.dec = streamRegs []) {cs : List Byte}
    {vs : List Quintet} (h : cs.map alpha = vs.map some) :
    ∃ p : Port, issueAll (cs.map .decChar) s =
      some ({ s with dec := streamRegs vs, port := p }, emissionResponses vs) := by
  induction vs using List.reverseRecOn generalizing cs with
  | nil =>
    obtain rfl : cs = [] := by simpa using h
    exact ⟨s.port, by rw [← hs]; rfl⟩
  | append_singleton vs v ih =>
    rw [List.map_append, List.map_eq_append_iff] at h
    obtain ⟨pre, last, rfl, hpre, hlast⟩ := h
    obtain ⟨c, rfl, hc⟩ : ∃ c, last = [c] ∧ alpha c = some v := by
      simpa [List.map_eq_singleton_iff] using hlast
    obtain ⟨p, hp⟩ := ih hpre
    refine ⟨.busy (emissionResponse (vs ++ [v]) vs.length), ?_⟩
    rw [List.map_append, emissionResponses_concat]
    exact issueAll_append hp (issueAll_singleton (issue_decChar_of_group rfl hc))

/-- After a failed character every character repeats the offending byte and changes nothing (R68). -/
theorem issueAll_decChars_of_error {s : State} (hs : s.dec.dstate = .error) (cs : List Byte) :
    ∃ p : Port, issueAll (cs.map .decChar) s = some ({ s with port := p },
      List.replicate cs.length { code := .decErr, data := s.dec.errchar.setWidth 32 }) := by
  induction cs generalizing s with
  | nil => exact ⟨s.port, rfl⟩
  | cons c cs ih =>
    obtain ⟨p, hp⟩ := ih (s := respondDecErr s.dec.errchar s) hs
    refine ⟨p, ?_⟩
    rw [List.map_cons, issueAll_cons (issue_decChar_of_error c hs), hp]
    rfl

/-- R66, first part: the transaction of a string of alphabet characters. -/
theorem issueAll_decStr_of_alphabet (s : State) {cs : List Byte} {vs : List Quintet}
    (h : cs.map alpha = vs.map some) :
    issueAll (decStr cs) s = some
      ({ s with dec := { streamRegs vs with dstate := .idle, acc := 0, nbits := 0 },
                port := .busy { code := .ok, data := BitVec.ofNat 32 (5 * vs.length / 8) } },
       { code := .ok, data := 0 } ::
         (emissionResponses vs ++ [{ code := .ok, data := BitVec.ofNat 32 (5 * vs.length / 8) }])) := by
  obtain ⟨p, hp⟩ := issueAll_decChars_of_alphabet
    (s := { s with dec := streamRegs [], port := .busy { code := .ok, data := 0 } }) rfl h
  rw [decStr, issueAll_cons (issue_decStart s),
    issueAll_append hp (issueAll_singleton (issue_decEnd_of_active rfl))]
  rfl

/-- The rest of a transaction that has failed: every response repeats the offending byte (R66). -/
theorem issueAll_decChars_decEnd_of_error {s : State} (hs : s.dec.dstate = .error) (cs : List Byte) :
    issueAll (cs.map .decChar ++ [.decEnd]) s = some
      ({ s with dec := { s.dec with dstate := .idle },
                port := .busy { code := .decErr, data := s.dec.errchar.setWidth 32 } },
       List.replicate (cs.length + 1) { code := .decErr, data := s.dec.errchar.setWidth 32 }) := by
  obtain ⟨p, hp⟩ := issueAll_decChars_of_error hs cs
  rw [issueAll_append hp (issueAll_singleton (issue_decEnd_of_error hs)), List.replicate_succ']
  rfl

/-- R66, second part: the transaction of a string with a first byte outside the alphabet. -/
theorem issueAll_decStr_of_offender (s : State) {cs : List Byte} {vs : List Quintet} {c : Byte}
    (h : cs.map alpha = vs.map some) (hc : alpha c = none) (ds : List Byte) :
    issueAll (decStr (cs ++ c :: ds)) s = some
      ({ s with dec := { streamRegs vs with dstate := .idle, errchar := c, derr := true, acc := 0,
                                            nbits := 0 },
                port := .busy { code := .decErr, data := c.setWidth 32 } },
       { code := .ok, data := 0 } :: (emissionResponses vs ++
         List.replicate (ds.length + 2) { code := .decErr, data := c.setWidth 32 })) := by
  obtain ⟨p, hp⟩ := issueAll_decChars_of_alphabet
    (s := { s with dec := streamRegs [], port := .busy { code := .ok, data := 0 } }) rfl h
  have hrest := issueAll_cons (is := ds.map .decChar ++ [.decEnd])
    (issue_decChar_of_offender (s := { s with dec := streamRegs vs, port := p }) rfl hc)
  rw [issueAll_decChars_decEnd_of_error rfl] at hrest
  rw [decStr, issueAll_cons (issue_decStart s), List.map_append, List.append_assoc,
    List.map_cons, List.cons_append, issueAll_append hp hrest]
  rfl

/-- The responses of `DEC.STR` are the same from every state. -/
theorem exists_decStr_responses (cs : List Byte) :
    ∃ rs : List Response, ∀ s : State, ∃ t : State, issueAll (decStr cs) s = some (t, rs) := by
  obtain ⟨vs, h⟩ | ⟨pre, vs, c, post, rfl, h, hc⟩ := alphabet_or_offender cs
  · exact ⟨_, fun s => ⟨_, issueAll_decStr_of_alphabet s h⟩⟩
  · exact ⟨_, fun s => ⟨_, issueAll_decStr_of_offender s h hc post⟩⟩

/-! ## The host's rule (R16, R103) -/

theorem hostDecodeStr_eq {cs : List Byte} {s t : State} {first last : Response} {rs : List Response}
    (h : issueAll (decStr cs) s = some (t, first :: (rs ++ [last]))) :
    hostDecodeStr cs s = hostDecode rs last := by
  simp [hostDecodeStr, h]

theorem find?_decErr_emissionResponses (vs : List Quintet) :
    (emissionResponses vs).find? (fun r => r.code = .decErr) = none := by
  rw [List.find?_eq_none]
  intro r hr
  simp [code_of_mem_emissionResponses hr]

theorem hostDecode_emissionResponses (vs : List Quintet) (d : Data) :
    hostDecode (emissionResponses vs) { code := .ok, data := d } = some (.ok (streamBytes vs)) := by
  simp [hostDecode, find?_decErr_emissionResponses, filterMap_emitted_emissionResponses]

theorem hostDecode_offender (vs : List Quintet) (n : Nat) (c : Byte) :
    hostDecode (emissionResponses vs ++
        List.replicate (n + 1) { code := .decErr, data := c.setWidth 32 })
      { code := .decErr, data := c.setWidth 32 } = some (.error c) := by
  have hc : (c.setWidth 32).extractLsb' 0 8 = c := by
    revert c; decide
  simp [hostDecode, find?_decErr_emissionResponses, List.replicate_succ, hc]

/-- Settles O21: the string is of alphabet characters only, or has a first byte outside the alphabet;
the responses of each transaction are known, and so is the document's function. -/
theorem hostDecodeIsBase32 : Obligations.HostDecodeIsBase32 := by
  unfold Obligations.HostDecodeIsBase32
  intro s cs
  obtain ⟨vs, h⟩ | ⟨pre, vs, c, post, rfl, h, hc⟩ := alphabet_or_offender cs
  · rw [hostDecodeStr_eq (issueAll_decStr_of_alphabet s h), hostDecode_emissionResponses,
      base32_of_alphabet h]
  · have hp := issueAll_decStr_of_offender s h hc post
    rw [List.replicate_succ', ← List.append_assoc] at hp
    rw [hostDecodeStr_eq hp, hostDecode_offender, base32_of_offender h hc]

end Sys2Proof.Machine
end

section
/-! SUPPORT. A digest load and truncation (R60, R70 to R75): `DBUF` while a digest is loaded, and the
responses of `TRU.DIGEST`. -/

namespace Sys2Proof.Machine

/-! ## TRU within a load and after it (R70 to R72) -/

/-- TRU has taken the bytes `ds` of a digest since `TRU_START a` (R70, R71); what `DBUF` holds beyond
them is free. -/
structure DigestLoading (a : Alg) (ds : List Byte) (t : TruRegs) : Prop where
  tload : t.tload = true
  alg : t.alg = a
  dcnt : t.dcnt.toNat = ds.length
  bytes : t.dbuf.toList.take ds.length = ds

/-- TRU holds the truncation of the digest `ds` (R72). -/
structure DigestTruncated (a : Alg) (ds : List Byte) (t : TruRegs) : Prop where
  tload : t.tload = false
  tvalid : t.tvalid = true
  alg : t.alg = a
  result : t.result = BitVec.ofNat 32 (dynamicTruncation ds)
  bytes : t.dbuf.toList.take ds.length = ds

/-- A store right behind the first bytes of a buffer makes them one byte longer. -/
theorem take_concat_toList_set {n : Nat} {buf : Vector Byte n} {ds : List Byte} (b : Byte)
    (h : buf.toList.take ds.length = ds) (hlt : ds.length < n) :
    (buf.set ds.length b hlt).toList.take (ds.length + 1) = ds ++ [b] := by
  rw [Vector.toList_set, List.take_add_one, List.take_set_of_le (Nat.le_refl _), h,
    List.getElem?_set_self (by simpa using hlt), Option.toList_some]

theorem issue_truStart (a : Alg) (s : State) : ∃ t : State,
    issue (.truStart a) s = some (t, { code := .ok, data := 0 }) ∧ DigestLoading a [] t.tru ∧
      t.dec = s.dec ∧ t.ill = s.ill :=
  ⟨_, rfl, ⟨rfl, rfl, rfl, rfl⟩, rfl, rfl⟩

/-- One more byte of a digest that is not complete (R71). -/
theorem issue_truByte_of_loading {s : State} {a : Alg} {ds : List Byte} (b : Byte)
    (hs : DigestLoading a ds s.tru) (hlt : ds.length < Config.digestLen a) : ∃ t : State,
    issue (.truByte b) s = some (t, { code := .ok, data := BitVec.ofNat 32 (ds.length + 1) }) ∧
      DigestLoading a (ds ++ [b]) t.tru ∧ t.dec = s.dec ∧ t.ill = s.ill := by
  have hle := digestLen_le a
  have hsucc : (s.tru.dcnt + 1).toNat = ds.length + 1 := by
    have hone : (1 : BitVec 5).toNat = 1 := rfl
    rw [BitVec.toNat_add, hs.dcnt, hone]; omega
  obtain ⟨h, -⟩ | ⟨-, -, h, -⟩ | ⟨-, -, h20, hexec⟩ := execTruByte_cases b s
  · simp [hs.tload, hs.dcnt, hs.alg] at h; omega
  · rw [hs.dcnt] at h; omega
  have hdata : (s.tru.dcnt + 1).setWidth 32 = BitVec.ofNat 32 (ds.length + 1) := by
    apply BitVec.eq_of_toNat_eq
    rw [BitVec.toNat_setWidth, hsucc, BitVec.toNat_ofNat]
  have hissue := issue_eq (i := .truByte b) hexec rfl
  rw [hdata] at hissue
  refine ⟨_, hissue, ⟨hs.tload, hs.alg, ?_, ?_⟩, rfl, rfl⟩
  · rw [List.length_append, List.length_singleton]; exact hsucc
  · have hstored := take_concat_toList_set b hs.bytes (hs.dcnt ▸ h20)
    simpa [hs.dcnt] using hstored

/-- The bytes of a digest, with the count after each (R71). -/
theorem issueAll_truBytes_of_loading {s : State} {a : Alg} (hs : DigestLoading a [] s.tru)
    {ds : List Byte} (hle : ds.length ≤ Config.digestLen a) : ∃ t : State,
    issueAll (ds.map .truByte) s = some (t, (List.range ds.length).map fun k =>
        { code := .ok, data := BitVec.ofNat 32 (k + 1) }) ∧
      DigestLoading a ds t.tru ∧ t.dec = s.dec ∧ t.ill = s.ill := by
  induction ds using List.reverseRecOn with
  | nil => exact ⟨s, rfl, hs, rfl, rfl⟩
  | append_singleton ds b ih =>
    rw [List.length_append, List.length_singleton] at hle ⊢
    obtain ⟨t, ht, hload, hdec, hill⟩ := ih (by omega)
    obtain ⟨u, hu, hload', hdec', hill'⟩ := issue_truByte_of_loading b hload (by omega)
    refine ⟨u, ?_, hload', hdec'.trans hdec, hill'.trans hill⟩
    rw [List.map_append, List.range_succ, List.map_append]
    exact issueAll_append ht (issueAll_singleton hu)

/-! ## The truncation of a complete digest (R72 to R75) -/

section
variable {t : TruRegs} {a : Alg} {ds : List Byte} (ht : DigestLoading a ds t)
  (hlen : ds.length = Config.digestLen a)
include ht hlen

/-- A byte of `DBUF` by its index modulo the digest length is that byte of the digest (R74). -/
theorem digestByte_of_loading (k : Nat) :
    t.digestByte (digestIndex a k) = ds.getD (k % ds.length) 0 := by
  have hk : k % ds.length < ds.length := Nat.mod_lt _ (hlen ▸ digestLen_pos a)
  have hget : ds.getD (k % ds.length) 0 = (t.dbuf.toList.take ds.length).getD (k % ds.length) 0 := by
    rw [ht.bytes]
  have h20 : k % ds.length < 20 := by have := digestLen_le a; omega
  rw [hget]
  simp [TruRegs.digestByte, hk, h20, ← hlen]

/-- `TRU_EXEC` computes the dynamic truncation of the digest it was given. -/
theorem truncValue_of_loading :
    truncValue t (truncOffset t) = BitVec.ofNat 32 (dynamicTruncation ds) := by
  have hval : (truncValue t (truncOffset t)).toNat = dynamicTruncation ds := by
    simp only [truncValue_toNat, windowByte, truncOffset_toNat, ht.alg, ← hlen,
      digestByte_of_loading ht hlen, dynamicTruncation, Nat.add_zero]
  rw [← hval, BitVec.ofNat_toNat, BitVec.setWidth_eq]

end

theorem issue_truExec_of_loading {s : State} {a : Alg} {ds : List Byte}
    (hs : DigestLoading a ds s.tru) (hlen : ds.length = Config.digestLen a) : ∃ t : State,
    issue .truExec s = some (t, { code := .ok, data := BitVec.ofNat 32 (dynamicTruncation ds) }) ∧
      DigestTruncated a ds t.tru ∧ t.dec = s.dec ∧ t.ill = s.ill := by
  obtain ⟨h, -⟩ | ⟨-, -, hexec⟩ := execTruExec_cases s
  · simp [hs.tload, hs.dcnt, hs.alg, hlen] at h
  · rw [truncValue_of_loading hs hlen] at hexec
    exact ⟨_, issue_eq (i := .truExec) hexec rfl, ⟨rfl, rfl, hs.alg, rfl, hs.bytes⟩, rfl, rfl⟩

theorem truDigest_eq_some {a : Alg} {ds : List Byte} {is : List Instr} :
    truDigest a ds = some is ↔
      ds.length = Config.digestLen a ∧ is = .truStart a :: (ds.map .truByte ++ [.truExec]) := by
  rw [truDigest, digestFits, Option.ite_none_right_eq_some, beq_iff_eq, Option.some_inj,
    eq_comm (b := is)]

/-- R60, R71, R72: the transaction of a digest of the right length, from any state. -/
theorem issueAll_truDigest (s : State) {a : Alg} {ds : List Byte} {is : List Instr}
    (h : truDigest a ds = some is) : ∃ t : State,
    issueAll is s = some (t, { code := .ok, data := 0 } ::
      ((List.range ds.length).map (fun k => { code := .ok, data := BitVec.ofNat 32 (k + 1) }) ++
        [{ code := .ok, data := BitVec.ofNat 32 (dynamicTruncation ds) }])) ∧
      DigestTruncated a ds t.tru ∧ t.dec = s.dec ∧ t.ill = s.ill := by
  obtain ⟨hlen, rfl⟩ := truDigest_eq_some.1 h
  obtain ⟨t, ht, hstart, htdec, htill⟩ := issue_truStart a s
  obtain ⟨u, hu, hload, hudec, huill⟩ := issueAll_truBytes_of_loading hstart hlen.le
  obtain ⟨v, hv, htrunc, hvdec, hvill⟩ := issue_truExec_of_loading hload hlen
  refine ⟨v, ?_, htrunc, by rw [hvdec, hudec, htdec], by rw [hvill, huill, htill]⟩
  rw [issueAll_cons ht, issueAll_append hu (issueAll_singleton hv)]
  rfl

/-- Settles O40: the responses of both transactions are functions of what the host gives alone. -/
theorem transactionsArePure : Obligations.TransactionsArePure := by
  unfold Obligations.TransactionsArePure
  intro s u
  refine ⟨fun cs => ?_, fun a ds is h => ?_⟩
  · obtain ⟨rs, hrs⟩ := exists_decStr_responses cs
    obtain ⟨t, ht⟩ := hrs s
    obtain ⟨v, hv⟩ := hrs u
    exact ⟨rs, t, v, ht, hv⟩
  · obtain ⟨t, ht, -⟩ := issueAll_truDigest s h
    obtain ⟨v, hv, -⟩ := issueAll_truDigest u h
    exact ⟨_, t, v, ht, hv⟩

end Sys2Proof.Machine
end

section
/-! SUPPORT. What an accepted command can do to the registers of each unit, and which response it gives,
said once (R32, R58). -/

namespace Sys2Proof.Machine

/-- An outcome that is a next state is that one state. -/
theorem eq_of_next {o : Host.Outcome State Fault Refusal} {t u : State} (h : o = .next t)
    (h' : o = .next u) : t = u :=
  Host.Outcome.next.inj (h.symm.trans h')

/-! ## The three families of commands (R32) -/

/-- A command of the decoder unit. -/
abbrev DecCommand (i : Instr) : Prop := i = .decStart ∨ (∃ c, i = .decChar c) ∨ i = .decEnd

/-- A command of the truncation unit. -/
abbrev TruCommand (i : Instr) : Prop := (∃ a, i = .truStart a) ∨ (∃ b, i = .truByte b) ∨ i = .truExec

/-- `NOP` or a read. -/
abbrev ControlCommand (i : Instr) : Prop :=
  i = .nop ∨ i = .rdStatus ∨ i = .rdResult ∨ i = .rdOutcnt ∨ i = .rdAcc

theorem command_family (i : Instr) : DecCommand i ∨ TruCommand i ∨ ControlCommand i := by
  cases i
  case decStart => exact .inl (.inl rfl)
  case decChar c => exact .inl (.inr (.inl ⟨c, rfl⟩))
  case decEnd => exact .inl (.inr (.inr rfl))
  case truStart a => exact .inr (.inl (.inl ⟨a, rfl⟩))
  case truByte b => exact .inr (.inl (.inr (.inl ⟨b, rfl⟩)))
  case truExec => exact .inr (.inl (.inr (.inr rfl)))
  case nop => exact .inr (.inr (.inl rfl))
  all_goals exact .inr (.inr (.inr (by simp)))

/-- A DEC command's new DEC registers and response are a function of the DEC registers alone (R32). -/
theorem exec_dec_local {i : Instr} (hi : DecCommand i) (d : DecRegs) :
    ∃ (d' : DecRegs) (r : Response), ∀ s : State,
      exec i { s with dec := d } = .next { s with dec := d', port := .busy r } := by
  obtain rfl | ⟨c, rfl⟩ | rfl := hi
  · exact ⟨_, _, fun s => rfl⟩
  · cases hd : d.dstate
    case idle => exact ⟨d, _, fun s => by simp only [exec, execDecChar, hd]; rfl⟩
    case error => exact ⟨d, _, fun s => by simp only [exec, execDecChar, hd]; rfl⟩
    case active =>
      cases hc : alpha c
      case none => exact ⟨_, _, fun s => by
          simp only [exec, execDecChar, hd, hc, failDecode, respondDecErr, respond]; rfl⟩
      case some v =>
        rcases Nat.lt_or_ge d.nbits.toNat 3 with h3 | h3
        · exact ⟨_, _, fun s => by
            simp only [exec, execDecChar, hd, hc]; rw [feedGroup_keep h3]; simp only [respond]; rfl⟩
        · exact ⟨_, _, fun s => by
            simp only [exec, execDecChar, hd, hc]; rw [feedGroup_emit h3]; simp only [respond]; rfl⟩
  · cases hd : d.dstate
    case idle => exact ⟨d, _, fun s => by simp only [exec, execDecEnd, hd]; rfl⟩
    case error => exact ⟨_, _, fun s => by simp only [exec, execDecEnd, hd]; rfl⟩
    case active => exact ⟨_, _, fun s => by simp only [exec, execDecEnd, hd]; rfl⟩

/-- A TRU command's new TRU registers and response are a function of the TRU registers alone (R32), and so
is whether it stops at a byte that does not exist. -/
theorem exec_tru_local {i : Instr} (hi : TruCommand i) (q : TruRegs) :
    (∃ (q' : TruRegs) (r : Response), ∀ s : State,
      exec i { s with tru := q } = .next { s with tru := q', port := .busy r }) ∨
    (q.dcnt.toNat ≠ Config.digestLen q.alg ∧ 20 ≤ q.dcnt.toNat ∧
      ∀ s : State, exec i { s with tru := q } = .fault (.dbufIndex q.dcnt.toNat)) := by
  obtain ⟨a, rfl⟩ | ⟨b, rfl⟩ | rfl := hi
  · exact .inl ⟨_, _, fun s => by simp only [exec, execTruStart, respond]; rfl⟩
  · by_cases hl : q.tload = false
    case pos => exact .inl ⟨q, _, fun s => by simp only [exec, execTruByte, hl, if_true]; rfl⟩
    cases hc : digestComplete q
    case true => exact .inl ⟨q, _, fun s => by simp only [exec, execTruByte, hl, hc, if_true]; rfl⟩
    case false =>
      rcases Nat.lt_or_ge q.dcnt.toNat 20 with h20 | h20
      · exact .inl ⟨_, _, fun s => by simp only [exec, execTruByte, hl, hc, storeByte_eq b h20]; rfl⟩
      · exact .inr ⟨digestComplete_eq_false.1 hc, h20, fun s => by
          simp only [exec, execTruByte, hl, hc, storeByte_none.2 h20]; rfl⟩
  · by_cases h : q.tload = false ∨ digestComplete q = false
    case pos => exact .inl ⟨q, _, fun s => by simp only [exec, execTruExec, h, if_true]; rfl⟩
    case neg => exact .inl ⟨_, _, fun s => by simp only [exec, execTruExec, h, if_false]; rfl⟩

/-- `NOP` and the reads change no register (R47), and their response does not depend on the interface. -/
theorem exec_control_local {i : Instr} (hi : ControlCommand i) (s : State) :
    ∃ r : Response, ∀ (p : Port) (es : List Edge), exec i { s with port := p, edges := es } =
      .next { s with port := .busy r, edges := es } := by
  obtain rfl | rfl | rfl | rfl | rfl := hi
  · exact ⟨⟨.ok, 0⟩, fun _ _ => rfl⟩
  · exact ⟨⟨.ok, statusWord s⟩, fun _ _ => rfl⟩
  · exact ⟨⟨.ok, s.tru.result⟩, fun _ _ => rfl⟩
  · exact ⟨⟨.ok, s.dec.outcnt⟩, fun _ _ => rfl⟩
  · exact ⟨⟨.ok, accWord s.dec⟩, fun _ _ => rfl⟩

/-! ## What a command leaves, and everything it can do -/

/-- A command that answers leaves `ILL` and the edges. -/
theorem exec_frame {i : Instr} {s t : State} (h : exec i s = .next t) :
    t.ill = s.ill ∧ t.edges = s.edges := by
  obtain ⟨d, q, r, h'⟩ | ⟨b, -, -, -, -, h'⟩ := exec_shape i s
  · obtain rfl := eq_of_next h h'; exact ⟨rfl, rfl⟩
  · nomatch h.symm.trans h'

theorem exec_dec_of_truCommand {i : Instr} {s t : State} (hi : TruCommand i)
    (h : exec i s = .next t) : t.dec = s.dec := by
  obtain ⟨q, r, h'⟩ | ⟨-, -, h'⟩ := exec_tru_local hi s.tru
  · obtain rfl := eq_of_next h (h' s); rfl
  · nomatch h.symm.trans (h' s)

theorem exec_tru_of_decCommand {i : Instr} {s t : State} (hi : DecCommand i)
    (h : exec i s = .next t) : t.tru = s.tru := by
  obtain ⟨d, r, h'⟩ := exec_dec_local hi s.dec
  obtain rfl := eq_of_next h (h' s); rfl

theorem exec_regs_of_controlCommand {i : Instr} {s t : State} (hi : ControlCommand i)
    (h : exec i s = .next t) : t.dec = s.dec ∧ t.tru = s.tru := by
  obtain ⟨r, h'⟩ := exec_control_local hi s
  obtain rfl := eq_of_next h (h' s.port s.edges); exact ⟨rfl, rfl⟩

/-- DEC after the 5-to-8 step of an alphabet character (R63). -/
theorem feedGroup_dec (v : Quintet) (s : State) :
    (3 ≤ s.dec.nbits.toNat ∧ (feedGroup v s).dec = { s.dec with
        acc := residue (shiftIn s.dec.acc v) (s.dec.nbits.toNat - 3),
        nbits := BitVec.ofNat 3 (s.dec.nbits.toNat - 3), outcnt := s.dec.outcnt + 1 }) ∨
    (s.dec.nbits.toNat < 3 ∧ (feedGroup v s).dec = { s.dec with
        acc := (shiftIn s.dec.acc v).setWidth 7, nbits := BitVec.ofNat 3 (s.dec.nbits.toNat + 5) }) := by
  rcases Nat.lt_or_ge s.dec.nbits.toNat 3 with h3 | h3
  · exact .inr ⟨h3, by rw [feedGroup_keep h3]; rfl⟩
  · exact .inl ⟨h3, by rw [feedGroup_emit h3]; rfl⟩

/-- Everything a command can do to DEC (R62, R63, R65). -/
theorem exec_dec_cases {i : Instr} {s t : State} (h : exec i s = .next t) :
    t.dec = s.dec ∨
    (i = .decStart ∧ t.dec =
      { dstate := .active, acc := 0, nbits := 0, outcnt := 0, errchar := 0, derr := false }) ∨
    (∃ c, i = .decChar c ∧ s.dec.dstate = .active ∧ alpha c = none ∧ t.dec =
      { s.dec with dstate := .error, errchar := c, derr := true, acc := 0, nbits := 0 }) ∨
    (∃ c v, i = .decChar c ∧ s.dec.dstate = .active ∧ alpha c = some v ∧
      t.dec = (feedGroup v s).dec) ∨
    (i = .decEnd ∧ s.dec.dstate = .error ∧ t.dec = { s.dec with dstate := .idle }) ∨
    (i = .decEnd ∧ s.dec.dstate = .active ∧
      t.dec = { s.dec with acc := 0, nbits := 0, dstate := .idle }) := by
  obtain (rfl | ⟨c, rfl⟩ | rfl) | hi | hi := command_family i
  · obtain rfl := Host.Outcome.next.inj h; exact .inr (.inl ⟨rfl, rfl⟩)
  · obtain ⟨-, h'⟩ | ⟨-, h'⟩ | ⟨ha, hc, h'⟩ | ⟨v, ha, hc, h'⟩ := execDecChar_cases c s <;>
      obtain rfl := eq_of_next h h'
    · exact .inl rfl
    · exact .inl rfl
    · exact .inr (.inr (.inl ⟨c, rfl, ha, hc, rfl⟩))
    · exact .inr (.inr (.inr (.inl ⟨c, v, rfl, ha, hc, rfl⟩)))
  · obtain ⟨-, h'⟩ | ⟨he, h'⟩ | ⟨ha, h'⟩ := execDecEnd_cases s <;>
      obtain rfl := eq_of_next h h'
    · exact .inl rfl
    · exact .inr (.inr (.inr (.inr (.inl ⟨rfl, he, rfl⟩))))
    · exact .inr (.inr (.inr (.inr (.inr ⟨rfl, ha, rfl⟩))))
  · exact .inl (exec_dec_of_truCommand hi h)
  · exact .inl (exec_regs_of_controlCommand hi h).1

/-- Everything a command can do to TRU (R70, R71, R72). -/
theorem exec_tru_cases {i : Instr} {s t : State} (h : exec i s = .next t) :
    t.tru = s.tru ∨
    (∃ a, i = .truStart a ∧ t.tru = { s.tru with
      alg := a, tload := true, dcnt := 0, result := 0, offset := 0, wrap := false, tvalid := false }) ∨
    (∃ b, i = .truByte b ∧ s.tru.tload = true ∧ s.tru.dcnt.toNat ≠ Config.digestLen s.tru.alg ∧
      ∃ hlt : s.tru.dcnt.toNat < 20, t.tru = { s.tru with
        dbuf := s.tru.dbuf.set s.tru.dcnt.toNat b hlt, dcnt := s.tru.dcnt + 1 }) ∨
    (i = .truExec ∧ s.tru.tload = true ∧ s.tru.dcnt.toNat = Config.digestLen s.tru.alg ∧
      t.tru = { s.tru with
        result := truncValue s.tru (truncOffset s.tru), offset := truncOffset s.tru,
        wrap := wraps s.tru.alg (truncOffset s.tru), tvalid := true, tload := false }) := by
  obtain hi | (⟨a, rfl⟩ | ⟨b, rfl⟩ | rfl) | hi := command_family i
  · exact .inl (exec_tru_of_decCommand hi h)
  · obtain rfl := Host.Outcome.next.inj h; exact .inr (.inl ⟨a, rfl, rfl⟩)
  · obtain ⟨-, h'⟩ | ⟨-, -, -, h'⟩ | ⟨hl, hne, hlt, h'⟩ := execTruByte_cases b s
    · obtain rfl := eq_of_next h h'; exact .inl rfl
    · nomatch h.symm.trans h'
    · obtain rfl := eq_of_next h h'
      exact .inr (.inr (.inl ⟨b, rfl, hl, hne, hlt, rfl⟩))
  · obtain ⟨-, h'⟩ | ⟨hl, hfull, h'⟩ := execTruExec_cases s <;>
      obtain rfl := eq_of_next h h'
    · exact .inl rfl
    · exact .inr (.inr (.inr ⟨rfl, hl, hfull, rfl⟩))
  · exact .inl (exec_regs_of_controlCommand hi h).2

/-! ## `TRU_BYTE` and `TRU_EXEC` case by case (R71, R72) -/

theorem execTruByte_of_refused {b : Byte} {s : State}
    (h : s.tru.tload = false ∨ s.tru.dcnt.toNat = Config.digestLen s.tru.alg) :
    execTruByte b s = .next (respondStateErr s) := by
  obtain ⟨-, h'⟩ | ⟨hl, hne, -⟩ | ⟨hl, hne, -⟩ := execTruByte_cases b s
  · exact h'
  · simp [hl, hne] at h
  · simp [hl, hne] at h

theorem execTruByte_of_loading {b : Byte} {s : State} (hl : s.tru.tload = true)
    (hne : s.tru.dcnt.toNat ≠ Config.digestLen s.tru.alg) (hlt : s.tru.dcnt.toNat < 20) :
    execTruByte b s = .next (respond .ok ((s.tru.dcnt + 1).setWidth 32)
      { s with tru := { s.tru with dbuf := s.tru.dbuf.set s.tru.dcnt.toNat b hlt,
                                   dcnt := s.tru.dcnt + 1 } }) := by
  obtain ⟨h, -⟩ | ⟨-, -, h20, -⟩ | ⟨-, -, _, h'⟩ := execTruByte_cases b s
  · simp [hl, hne] at h
  · omega
  · exact h'

theorem execTruExec_of_refused {s : State}
    (h : s.tru.tload = false ∨ s.tru.dcnt.toNat ≠ Config.digestLen s.tru.alg) :
    execTruExec s = .next (respondStateErr s) := by
  obtain ⟨-, h'⟩ | ⟨hl, hfull, -⟩ := execTruExec_cases s
  · exact h'
  · simp [hl, hfull] at h

theorem execTruExec_of_complete {s : State} (hl : s.tru.tload = true)
    (hfull : s.tru.dcnt.toNat = Config.digestLen s.tru.alg) :
    execTruExec s = .next (respond .ok (truncValue s.tru (truncOffset s.tru))
      { s with tru := { s.tru with
          result := truncValue s.tru (truncOffset s.tru), offset := truncOffset s.tru,
          wrap := wraps s.tru.alg (truncOffset s.tru), tvalid := true, tload := false } }) := by
  obtain ⟨h, -⟩ | ⟨-, -, h'⟩ := execTruExec_cases s
  · simp [hl, hfull] at h
  · exact h'

/-! ## Responses (R58, R83) -/

theorem responseWf_ok (d : Data) : ResponseWf { code := .ok, data := d } := by simp [ResponseWf]

theorem responseWf_stateErr : ResponseWf { code := .stateErr, data := 0 } := by simp [ResponseWf]

theorem responseWf_decErr (c : Byte) : ResponseWf { code := .decErr, data := c.setWidth 32 } := by
  have := c.isLt
  simp [ResponseWf]; omega

theorem responseWf_illegal (w : Cmd) : ResponseWf { code := .illegal, data := w.setWidth 32 } := by
  have := w.isLt
  simp [ResponseWf]; omega

/-- The port holds a response that a legal command can give, its code other than `ILLEGAL` (R58). -/
abbrev CommandResponse (p : Port) : Prop := ∃ r, p = .busy r ∧ ResponseWf r ∧ r.code ≠ .illegal

theorem commandResponse_ok (d : Data) (s : State) : CommandResponse (respond .ok d s).port :=
  ⟨_, rfl, responseWf_ok d, by simp⟩

theorem commandResponse_stateErr (s : State) : CommandResponse (respondStateErr s).port :=
  ⟨_, rfl, responseWf_stateErr, by simp⟩

theorem commandResponse_decErr (c : Byte) (s : State) : CommandResponse (respondDecErr c s).port :=
  ⟨_, rfl, responseWf_decErr c, by simp⟩

theorem commandResponse_feedGroup (v : Quintet) (s : State) : CommandResponse (feedGroup v s).port := by
  rcases Nat.lt_or_ge s.dec.nbits.toNat 3 with h3 | h3
  · rw [feedGroup_keep h3]; exact commandResponse_ok _ _
  · rw [feedGroup_emit h3]; exact commandResponse_ok _ _

/-- Every command that answers gives such a response. -/
theorem exec_response {i : Instr} {s t : State} (h : exec i s = .next t) :
    CommandResponse t.port := by
  cases i
  case decChar c =>
    obtain ⟨-, h'⟩ | ⟨-, h'⟩ | ⟨-, -, h'⟩ | ⟨v, -, -, h'⟩ := execDecChar_cases c s <;>
      obtain rfl := eq_of_next h h'
    · exact commandResponse_stateErr _
    · exact commandResponse_decErr _ _
    · exact commandResponse_decErr _ _
    · exact commandResponse_feedGroup v s
  case decEnd =>
    obtain ⟨-, h'⟩ | ⟨-, h'⟩ | ⟨-, h'⟩ := execDecEnd_cases s <;>
      obtain rfl := eq_of_next h h'
    · exact commandResponse_stateErr _
    · exact commandResponse_decErr _ _
    · exact commandResponse_ok _ _
  case truByte b =>
    obtain ⟨-, h'⟩ | ⟨-, -, -, h'⟩ | ⟨-, -, _, h'⟩ := execTruByte_cases b s
    · obtain rfl := eq_of_next h h'; exact commandResponse_stateErr _
    · nomatch h.symm.trans h'
    · obtain rfl := eq_of_next h h'; exact commandResponse_ok _ _
  case truExec =>
    obtain ⟨-, h'⟩ | ⟨-, -, h'⟩ := execTruExec_cases s <;>
      obtain rfl := eq_of_next h h'
    · exact commandResponse_stateErr _
    · exact commandResponse_ok _ _
  all_goals obtain rfl := Host.Outcome.next.inj h; exact commandResponse_ok _ _

end Sys2Proof.Machine
end

section
/-! SUPPORT. What a step can do, as seen from the state it answers, and what every step keeps (R24, R27,
R83). -/

namespace Sys2Proof.Machine

/-- At an edge with `rst = 0` the step is the handshake with that edge used up. -/
theorem step_eq_handshake {s : State} {e : Edge} {es : List Edge} (he : s.edges = e :: es)
    (hr : e.rst = false) : step s = handshake e { s with edges := es } := by
  simp [step, he, clockEdge, hr]

/-- At an edge with `rst = 0`, `cmd_ready = 1` and `cmd_valid = 1` the offered word is accepted (R20). -/
theorem step_eq_accept {s : State} {e : Edge} {es : List Edge} (he : s.edges = e :: es)
    (hr : e.rst = false) (hv : e.cmdValid = true) (hp : s.port = .ready) :
    step s = accept e.cmd { s with edges := es } := by
  rw [step_eq_handshake he hr]
  simp [handshake, hp, hv]

/-- Everything a step that answers can have done: the handshake moved, and the port holds no response it
did not hold; or reset; or a legal word ran its command; or a reserved word was refused. -/
theorem step_next_cases {s t : State} (h : step s = .next t) :
    (∃ p es, t = { s with port := p, edges := es } ∧
      ∀ r ∈ heldResponse p, r ∈ heldResponse s.port) ∨
    (∃ e es, s.edges = e :: es ∧ e.rst = true ∧ t = applyReset { s with edges := es }) ∨
    (∃ e es i, s.edges = e :: es ∧ e.rst = false ∧ e.cmdValid = true ∧ s.port = .ready ∧
      decode e.cmd = .ok i ∧ exec i { s with edges := es } = .next t) ∨
    (∃ e es x, s.edges = e :: es ∧ e.rst = false ∧ e.cmdValid = true ∧ s.port = .ready ∧
      decode e.cmd = .error x ∧ t = illegal e.cmd { s with edges := es }) := by
  obtain ⟨-, h'⟩ | ⟨e, es, he, hr, h'⟩ | ⟨e, es, he, hr, h'⟩ := step_cases s
  · obtain rfl := eq_of_next h h'
    exact .inl ⟨_, _, rfl, fun _ => id⟩
  · exact .inr (.inl ⟨e, es, he, hr, eq_of_next h h'⟩)
  · obtain ⟨hp, hv, ha⟩ | ⟨p, hn, -, hmove⟩ := handshake_cases e { s with edges := es }
    · obtain ⟨i, hdec, hx⟩ | ⟨x, hdec, hx⟩ := accept_cases e.cmd { s with edges := es }
      · exact .inr (.inr (.inl ⟨e, es, i, he, hr, hv, hp, hdec, by rw [← hx, ← ha, ← h', h]⟩))
      · exact .inr (.inr (.inr ⟨e, es, x, he, hr, hv, hp, hdec,
          eq_of_next h (h'.trans (ha.trans hx))⟩))
    · refine .inl ⟨p, es, eq_of_next h (h'.trans hn), ?_⟩
      obtain ⟨-, rfl⟩ | ⟨-, rfl⟩ | ⟨r, hp, rfl⟩ | ⟨r, hp, rfl⟩ | ⟨-, rfl⟩ := hmove
      · simp [heldResponse]
      · simp [heldResponse]
      · rw [show s.port = _ from hp]; split <;> exact fun _ => id
      · rw [show s.port = _ from hp]; split_ifs <;> simp [heldResponse]
      · split <;> simp [heldResponse]

/-- A predicate of the DEC and TRU registers that reset has and every command keeps is kept by every
step. -/
theorem step_keeps_of_exec_keeps {P : DecRegs → TruRegs → Prop}
    (hreset : P DecRegs.reset TruRegs.reset)
    (hexec : ∀ (i : Instr) (s t : State), P s.dec s.tru → exec i s = .next t → P t.dec t.tru)
    {s t : State} (hs : P s.dec s.tru) (h : step s = .next t) : P t.dec t.tru := by
  obtain ⟨p, es, rfl, -⟩ | ⟨e, es, -, -, rfl⟩ | ⟨e, es, i, -, -, -, -, -, hx⟩ |
    ⟨e, es, x, -, -, -, -, -, rfl⟩ := step_next_cases h
  · exact hs
  · exact hreset
  · exact hexec i { s with edges := es } t hs hx
  · exact hs

/-! ## DEC (R24) -/

theorem decInv_reset : DecInv DecRegs.reset := by decide

/-- The residual bits of the 5-to-8 step fit in their new count (R24, R63). -/
theorem feedGroup_decInv {v : Quintet} {s : State} (hs : DecInv s.dec)
    (ha : s.dec.dstate = .active) : DecInv (feedGroup v s).dec := by
  obtain ⟨hacc, hn, h3, -, hact⟩ := hs
  obtain ⟨hge, h⟩ | ⟨hlt, h⟩ := feedGroup_dec v s <;> rw [h]
  · have hn' : (BitVec.ofNat 3 (s.dec.nbits.toNat - 3)).toNat = s.dec.nbits.toNat - 3 := by
      rw [BitVec.toNat_ofNat]; omega
    refine ⟨?_, by rw [hn']; omega, h3, fun he => (nomatch ha.symm.trans he), hact⟩
    rw [hn', residue_toNat _ (by omega)]
    exact Nat.mod_lt _ (Nat.two_pow_pos _)
  · have hn' : (BitVec.ofNat 3 (s.dec.nbits.toNat + 5)).toNat = s.dec.nbits.toNat + 5 := by
      rw [BitVec.toNat_ofNat]; omega
    refine ⟨?_, by rw [hn']; omega, h3, fun he => (nomatch ha.symm.trans he), hact⟩
    have hv := v.isLt
    rw [hn', BitVec.toNat_setWidth, shiftIn_toNat, Nat.pow_add]
    exact Nat.lt_of_le_of_lt (Nat.mod_le _ _) (by omega)

theorem exec_keeps_decInv {i : Instr} {s t : State} (hs : DecInv s.dec) (h : exec i s = .next t) :
    DecInv t.dec := by
  obtain ht | ⟨-, ht⟩ | ⟨c, -, -, -, ht⟩ | ⟨c, v, -, ha, -, ht⟩ | ⟨-, -, ht⟩ | ⟨-, -, ht⟩ :=
    exec_dec_cases h <;> rw [ht]
  · exact hs
  · decide
  · simp [DecInv, dstateCode]
  · exact feedGroup_decInv hs ha
  · obtain ⟨hacc, hn, -, -, -⟩ := hs
    exact ⟨hacc, hn, by simp [dstateCode], nofun, nofun⟩
  · simp [DecInv, dstateCode]

/-- Settles O41: DEC's invariants are kept by every command (the residual bits of the 5-to-8 step being
the one case with arithmetic), hence by every step. -/
theorem stepKeepsDecInvariants : Obligations.StepKeepsDecInvariants := by
  unfold Obligations.StepKeepsDecInvariants
  exact ⟨decInv_reset, fun s t => step_keeps_of_exec_keeps (P := fun d _ => DecInv d) decInv_reset
    fun _ _ _ => exec_keeps_decInv⟩

/-! ## TRU (R27) -/

theorem truInv_reset : TruInv TruRegs.reset := by decide

/-- The sign bit of the truncated value is masked away (R75). -/
theorem truncValue_getLsbD_31 (t : TruRegs) (off : BitVec 4) :
    (truncValue t off).getLsbD 31 = false := by
  have h1 := (windowByte t off 1).isLt
  have h2 := (windowByte t off 2).isLt
  have h3 := (windowByte t off 3).isLt
  refine Nat.testBit_lt_two_pow ?_
  rw [truncValue_toNat]; omega

/-- The byte count goes up by one where the digest is not complete. -/
theorem dcnt_succ_toNat {t : TruRegs} (h : t.dcnt.toNat < 20) :
    (t.dcnt + 1).toNat = t.dcnt.toNat + 1 := by
  have hone : (1 : BitVec 5).toNat = 1 := rfl
  rw [BitVec.toNat_add, hone]; omega

theorem exec_keeps_truInv {i : Instr} {s t : State} (hs : TruInv s.tru) (h : exec i s = .next t) :
    TruInv t.tru := by
  obtain ht | ⟨a, -, ht⟩ | ⟨b, -, -, hne, hlt, ht⟩ | ⟨-, -, hfull, ht⟩ := exec_tru_cases h <;> rw [ht]
  · exact hs
  · simp [TruInv]
  · obtain ⟨hd, hrest⟩ := hs
    exact ⟨by simp only [dcnt_succ_toNat hlt]; omega, hrest⟩
  · exact ⟨hfull.le, truncValue_getLsbD_31 _ _, nofun, wraps_eq_true.1⟩

/-- Settles O42: TRU's invariants are kept by every command, hence by every step. -/
theorem stepKeepsTruInvariants : Obligations.StepKeepsTruInvariants := by
  unfold Obligations.StepKeepsTruInvariants
  exact ⟨truInv_reset, fun s t => step_keeps_of_exec_keeps (P := fun _ q => TruInv q) truInv_reset
    fun _ _ _ => exec_keeps_truInv⟩

/-! ## Both units (R22, R25, R72, R80) -/

/-- The DEC half of `UnitInv`. -/
abbrev DecUnitInv (d : DecRegs) : Prop :=
  (d.dstate ≠ .active → d.acc = 0 ∧ d.nbits = 0) ∧ (d.derr = false → d.errchar = 0)

/-- The TRU half of `UnitInv`. -/
abbrev TruUnitInv (q : TruRegs) : Prop :=
  q.tvalid = true → q.tload = false ∧ q.dcnt.toNat = Config.digestLen q.alg

theorem unitInv_iff {s : State} : UnitInv s ↔ DecUnitInv s.dec ∧ TruUnitInv s.tru := and_assoc.symm

theorem exec_keeps_decUnitInv {i : Instr} {s t : State} (hd : DecInv s.dec) (hs : DecUnitInv s.dec)
    (h : exec i s = .next t) : DecUnitInv t.dec := by
  obtain ⟨hres, herr⟩ := hs
  obtain ⟨-, -, -, hfail, -⟩ := hd
  obtain ht | ⟨-, ht⟩ | ⟨c, -, -, -, ht⟩ | ⟨c, v, -, ha, -, ht⟩ | ⟨-, he, ht⟩ | ⟨-, -, ht⟩ :=
    exec_dec_cases h <;> rw [ht]
  · exact ⟨hres, herr⟩
  · decide
  · simp [DecUnitInv]
  · obtain ⟨-, hg⟩ | ⟨-, hg⟩ := feedGroup_dec v s <;> rw [hg] <;>
      exact ⟨fun hna => absurd ha hna, herr⟩
  · exact ⟨fun _ => (hfail he).2, herr⟩
  · exact ⟨fun _ => ⟨rfl, rfl⟩, herr⟩

theorem exec_keeps_truUnitInv {i : Instr} {s t : State} (hs : TruUnitInv s.tru)
    (h : exec i s = .next t) : TruUnitInv t.tru := by
  obtain ht | ⟨a, -, ht⟩ | ⟨b, -, hl, -, _, ht⟩ | ⟨-, -, hfull, ht⟩ := exec_tru_cases h <;> rw [ht]
  · exact hs
  · exact nofun
  · exact fun hv => absurd (hs hv).1 (by simp [hl])
  · exact fun _ => ⟨rfl, hfull⟩

/-- Settles O43: both halves are kept by every command, DEC's with R24's help. -/
theorem stepKeepsUnitInvariants : Obligations.StepKeepsUnitInvariants := by
  unfold Obligations.StepKeepsUnitInvariants
  intro s t hd hu h
  have hkeep := step_keeps_of_exec_keeps (P := fun d q => DecInv d ∧ DecUnitInv d ∧ TruUnitInv q)
    (by decide) (fun i s t ⟨hd, hdu, htu⟩ hx =>
      ⟨exec_keeps_decInv hd hx, exec_keeps_decUnitInv hd hdu hx, exec_keeps_truUnitInv htu hx⟩)
    ⟨hd, unitInv_iff.1 hu⟩ h
  exact unitInv_iff.2 hkeep.2

/-! ## The port (R28, R83) -/

/-- Settles O44: a response at the port was there before, or is the one its command computed. -/
theorem stepKeepsPortInvariant : Obligations.StepKeepsPortInvariant := by
  unfold Obligations.StepKeepsPortInvariant
  intro s t hs h
  obtain ⟨p, es, rfl, hheld⟩ | ⟨e, es, -, -, rfl⟩ | ⟨e, es, i, -, -, -, -, -, hx⟩ |
    ⟨e, es, x, -, -, -, -, -, rfl⟩ := step_next_cases h
  · exact fun r hr => hs r (hheld r hr)
  · exact nofun
  · obtain ⟨r, hp, hwf, hcode⟩ := exec_response hx
    intro r' hr'
    rw [hp] at hr'
    obtain rfl := Option.some.inj hr'
    exact ⟨hwf, fun hill => absurd hill hcode⟩
  · intro r hr
    obtain rfl := Option.some.inj hr
    exact ⟨responseWf_illegal e.cmd, fun _ => rfl⟩

/-! ## Progress -/

/-- No command faults in a state R27 allows: the one fault stores beyond a buffer that holds every
digest. -/
theorem exec_answers {s : State} (hs : TruInv s.tru) (i : Instr) : ∃ t : State, exec i s = .next t := by
  obtain ⟨d, q, r, h⟩ | ⟨b, -, -, hne, h20, -⟩ := exec_shape i s
  · exact ⟨_, h⟩
  · obtain ⟨hd, -⟩ := hs
    have := digestLen_le s.tru.alg
    omega

theorem step_answers {s : State} (hs : TruInv s.tru) : ∃ t : State, step s = .next t := by
  obtain ⟨-, h⟩ | ⟨e, es, -, -, h⟩ | ⟨e, es, -, -, h⟩ := step_cases s
  · exact ⟨_, h⟩
  · exact ⟨_, h⟩
  · obtain ⟨-, -, ha⟩ | ⟨p, hn, -⟩ := handshake_cases e { s with edges := es }
    · obtain ⟨i, -, hx⟩ | ⟨x, -, hx⟩ := accept_cases e.cmd { s with edges := es }
      · obtain ⟨t, ht⟩ := exec_answers (s := { s with edges := es }) hs i
        exact ⟨t, by rw [h, ha, hx, ht]⟩
      · exact ⟨_, by rw [h, ha, hx]⟩
    · exact ⟨_, by rw [h, hn]⟩

/-- Settles O45: R27 rules the one fault out, and each invariant is kept. -/
theorem stepNeverStopsUnderInvariant : Obligations.StepNeverStopsUnderInvariant := by
  unfold Obligations.StepNeverStopsUnderInvariant
  rintro s ⟨hdec, htru, hport⟩
  obtain ⟨t, h⟩ := step_answers htru
  exact ⟨t, h, stepKeepsDecInvariants.2 s t hdec h, stepKeepsTruInvariants.2 s t htru h,
    stepKeepsPortInvariant s t hport h⟩

/-- Settles O2: the registers of both states are those of reset, and the port of neither holds a
response. -/
theorem resetMeetsInvariants : Obligations.ResetMeetsInvariants := by
  unfold Obligations.ResetMeetsInvariants
  have hunit : DecUnitInv DecRegs.reset ∧ TruUnitInv TruRegs.reset := by decide
  exact ⟨⟨⟨decInv_reset, truInv_reset, nofun⟩, unitInv_iff.2 hunit⟩,
    fun s => ⟨⟨decInv_reset, truInv_reset, nofun⟩, unitInv_iff.2 hunit⟩⟩

end Sys2Proof.Machine
end

section
/-! SUPPORT. The two units and the interface are independent (R32, R33), and what a load does not show of
`DBUF` (R36, R70). -/

namespace Sys2Proof.Machine

/-- No command depends on the port or the edges: what it does is one function of the registers (R33). -/
theorem exec_interface_local (i : Instr) (s : State) :
    (∃ (d : DecRegs) (q : TruRegs) (r : Response), ∀ (p : Port) (es : List Edge),
      exec i { s with port := p, edges := es } =
        .next { s with dec := d, tru := q, port := .busy r, edges := es }) ∨
    (∃ f : Fault, ∀ (p : Port) (es : List Edge), exec i { s with port := p, edges := es } = .fault f) := by
  obtain hi | hi | hi := command_family i
  · obtain ⟨d, r, h⟩ := exec_dec_local hi s.dec
    exact .inl ⟨d, s.tru, r, fun p es => h { s with port := p, edges := es }⟩
  · obtain ⟨q, r, h⟩ | ⟨-, -, h⟩ := exec_tru_local hi s.tru
    · exact .inl ⟨s.dec, q, r, fun p es => h { s with port := p, edges := es }⟩
    · exact .inr ⟨_, fun p es => h { s with port := p, edges := es }⟩
  · obtain ⟨r, h⟩ := exec_control_local hi s
    exact .inl ⟨s.dec, s.tru, r, h⟩

/-- Settles O12: both states are the registers of `s` behind some interface state. -/
theorem execIgnoresInterface : Obligations.ExecIgnoresInterface := by
  unfold Obligations.ExecIgnoresInterface
  intro i s p es
  obtain ⟨d, q, r, h⟩ | ⟨f, h⟩ := exec_interface_local i s
  · exact .inl ⟨_, h s.port s.edges, rfl, h p es⟩
  · exact .inr ⟨f, h s.port s.edges, h p es⟩

/-- Settles O38: DEC's registers are all a DEC command reads or writes. -/
theorem decCommandsStayInDec : Obligations.DecCommandsStayInDec := by
  unfold Obligations.DecCommandsStayInDec
  intro i s u hi hsu
  obtain ⟨d, r, h⟩ := exec_dec_local hi s.dec
  have hu : { u with dec := s.dec } = u := by rw [hsu]
  exact ⟨d, r, h s, hu ▸ h u⟩

/-- Settles O39: TRU's registers are all a TRU command reads or writes, and R27 rules the fault out. -/
theorem truCommandsStayInTru : Obligations.TruCommandsStayInTru := by
  unfold Obligations.TruCommandsStayInTru
  intro i s u hi hsu hinv
  obtain ⟨q, r, h⟩ | ⟨-, -, h⟩ := exec_tru_local hi s.tru
  · have hu : { u with tru := s.tru } = u := by rw [hsu]
    exact ⟨q, r, h s, hu ▸ h u⟩
  · obtain ⟨t, ht⟩ := exec_answers hinv i
    nomatch ht.symm.trans (h s)

/-! ## Stale bytes of `DBUF` (R36, R70) -/

/-- The state with another digest buffer. -/
def State.withDbuf (s : State) (buf : Vector Byte 20) : State :=
  { s with tru := { s.tru with dbuf := buf } }

/-- Two buffers hold the same first `n` bytes. -/
abbrev SameBytes (n : Nat) (buf buf' : Vector Byte 20) : Prop :=
  ∀ k : Fin 20, k.val < n → buf[k] = buf'[k]

/-- Bytes of a complete digest, by their index modulo its length, are among its first `DCNT` (R74). -/
theorem truncValue_congr_dbuf {q : TruRegs} {buf : Vector Byte 20}
    (hfull : q.dcnt.toNat = Config.digestLen q.alg) (h : SameBytes q.dcnt.toNat buf q.dbuf) :
    truncOffset { q with dbuf := buf } = truncOffset q ∧
    ∀ off, truncValue { q with dbuf := buf } off = truncValue q off := by
  have hbyte : ∀ k, TruRegs.digestByte { q with dbuf := buf } (digestIndex q.alg k) =
      q.digestByte (digestIndex q.alg k) := fun k =>
    h _ (by rw [hfull]; exact Nat.mod_lt _ (digestLen_pos _))
  exact ⟨by simp only [truncOffset, hbyte], fun off => by simp only [truncValue, windowByte, hbyte]⟩

/-- A store at index `n` of two buffers with the same bytes below `n` makes them the same below
`n + 1`. -/
theorem sameBytes_set {n : Nat} {buf buf' : Vector Byte 20} (b : Byte) (hn : n < 20)
    (h : SameBytes n buf buf') : SameBytes (n + 1) (buf.set n b hn) (buf'.set n b hn) := by
  intro k hk
  simp only [Fin.getElem_fin, Vector.getElem_set]
  split
  case isTrue => rfl
  case isFalse hne => exact h k (by omega)

/-- A command answers a state with other bytes at `DCNT` and above with the same response and registers, and
the next states differ in such bytes only. -/
theorem exec_withDbuf {i : Instr} {s t : State} {buf : Vector Byte 20}
    (hbuf : SameBytes s.tru.dcnt.toNat buf s.tru.dbuf) (h : exec i s = .next t) :
    ∃ buf', exec i (s.withDbuf buf) = .next (t.withDbuf buf') ∧
      SameBytes t.tru.dcnt.toNat buf' t.tru.dbuf := by
  obtain hi | (⟨a, rfl⟩ | ⟨b, rfl⟩ | rfl) | (rfl | rfl | rfl | rfl | rfl) := command_family i
  case inl =>
    obtain ⟨d, r, hloc⟩ := exec_dec_local hi s.dec
    obtain rfl := eq_of_next h (hloc s)
    exact ⟨buf, hloc (s.withDbuf buf), hbuf⟩
  case inr.inl.inl =>
    obtain rfl := Host.Outcome.next.inj h
    exact ⟨buf, rfl, nofun⟩
  case inr.inl.inr.inl =>
    obtain ⟨href, h'⟩ | ⟨-, -, -, h'⟩ | ⟨hl, hne, hlt, h'⟩ := execTruByte_cases b s
    · obtain rfl := eq_of_next h h'
      exact ⟨buf, execTruByte_of_refused (s := s.withDbuf buf) href, hbuf⟩
    · nomatch h.symm.trans h'
    · obtain rfl := eq_of_next h h'
      refine ⟨_, execTruByte_of_loading (s := s.withDbuf buf) hl hne hlt, ?_⟩
      rw [respond_tru, dcnt_succ_toNat hlt]
      exact sameBytes_set b hlt hbuf
  case inr.inl.inr.inr =>
    obtain ⟨href, h'⟩ | ⟨hl, hfull, h'⟩ := execTruExec_cases s
    · obtain rfl := eq_of_next h h'
      exact ⟨buf, execTruExec_of_refused (s := s.withDbuf buf) href, hbuf⟩
    · obtain rfl := eq_of_next h h'
      obtain ⟨hoff, hval⟩ := truncValue_congr_dbuf hfull hbuf
      have hx := execTruExec_of_complete (s := s.withDbuf buf) hl hfull
      simp only [State.withDbuf, hoff, hval] at hx
      exact ⟨buf, hx, hbuf⟩
  all_goals
    obtain rfl := Host.Outcome.next.inj h
    exact ⟨buf, rfl, hbuf⟩

/-- Settles O29: no command reads or counts a byte of `DBUF` that this load has not stored. -/
theorem staleDigestBytesUnobservable : Obligations.StaleDigestBytesUnobservable := by
  unfold Obligations.StaleDigestBytesUnobservable
  intro i s u hinv hu hbuf
  obtain ⟨t, ht⟩ := exec_answers hinv i
  obtain ⟨buf, hv, hsame⟩ := exec_withDbuf hbuf ht
  exact ⟨t, _, ht, (show s.withDbuf u.tru.dbuf = u from hu.symm) ▸ hv, rfl, hsame⟩

end Sys2Proof.Machine
end

section
/-! SUPPORT. The fields of a command word, the round trip of the decoder and the reserved words (R51 to
R55). -/

namespace Sys2Proof.Machine

theorem opField_cmdWord (op sub : BitVec 4) (data : Byte) : opField (cmdWord op sub data) = op := by
  rw [opField, cmdWord, BitVec.extractLsb'_append_eq_of_le (by decide)]
  exact BitVec.extractLsb'_append_eq_left

theorem subField_cmdWord (op sub : BitVec 4) (data : Byte) : subField (cmdWord op sub data) = sub := by
  rw [subField, cmdWord, BitVec.extractLsb'_append_eq_of_le (by decide)]
  exact BitVec.extractLsb'_append_eq_right

theorem dataField_cmdWord (op sub : BitVec 4) (data : Byte) : dataField (cmdWord op sub data) = data :=
  BitVec.extractLsb'_append_eq_right

theorem decode_encode (i : Instr) : decode (encode i) = .ok i := by
  cases i
  case truStart a => cases a <;> decide
  all_goals
    simp only [encode, decode, opField_cmdWord, subField_cmdWord, dataField_cmdWord]
    rfl

/-! ## The reserved words (R55) -/

theorem withData_error_iff {sub : BitVec 4} {i : Instr} :
    (∃ x, withData sub i = .error x) ↔ ¬ sub.toNat = 0 := by
  have h0 : sub.toNat = 0 ↔ sub = 0 := BitVec.toNat_inj (y := 0)
  rw [withData, h0]
  split <;> simp_all

theorem withoutData_error_iff {sub mask : BitVec 4} {data : Byte} {i : Instr} :
    (∃ x, withoutData sub mask data i = .error x) ↔ ¬ sub &&& mask = 0 ∨ ¬ data.toNat = 0 := by
  have h0 : data.toNat = 0 ↔ data = 0 := BitVec.toNat_inj (y := 0)
  rw [withoutData, h0]
  split
  case isTrue => simp_all
  case isFalse => split <;> simp_all

/-- The `SUB` bits that must be 0, below which the algorithm or the register selector stands (R52). -/
theorem subMask_eq_zero_iff : ∀ sub : BitVec 4, (sub &&& 0b1111#4 = 0#4 ↔ sub.toNat = 0) ∧
    (sub &&& 0b1110#4 = 0#4 ↔ sub.toNat < 2) ∧ (sub &&& 0b1100#4 = 0#4 ↔ sub.toNat < 4) := by decide

/-- R55 lists exactly the words that do not decode. -/
theorem reservedWord_iff (w : Cmd) : ReservedWord w ↔ ∃ x, decode w = .error x := by
  have hop := (opField w).isLt
  obtain ⟨hsub, hsub2, hsub4⟩ := subMask_eq_zero_iff (subField w)
  rw [ReservedWord, ← opField_toNat, ← subField_toNat, ← dataField_toNat, decode]
  generalize (opField w).toNat = op at *
  interval_cases op <;>
    simp [ReservedFields, withData_error_iff, withoutData_error_iff, hsub, hsub2, hsub4,
      Nat.succ_le_iff]
/-! ## Accepting a word (R20, R28, R84) -/

theorem accept_of_decode {w : Cmd} {i : Instr} {s : State} (h : decode w = .ok i) :
    accept w s = exec i s := by
  simp only [accept, h]

theorem accept_of_reserved {w : Cmd} {s : State} (h : ReservedWord w) :
    accept w s = .next (illegal w s) := by
  obtain ⟨x, hx⟩ := (reservedWord_iff w).1 h
  simp only [accept, hx]

/-- Settles O10: the word is accepted, and runs the command it decodes to. -/
theorem stepRunsDecodedCommand : Obligations.StepRunsDecodedCommand := by
  unfold Obligations.StepRunsDecodedCommand
  refine ⟨fun s e es i he hr hv hready hdec _ => ?_, fun s i _ => ?_⟩
  · rw [step_eq_accept he hr hv (cmdReady_eq_true.1 hready), accept_of_decode hdec]
  · have hword : BitVec.ofNat 16 ((encode i).toNat % 2 ^ 16) = encode i := by
      rw [Nat.mod_eq_of_lt (encode i).isLt, BitVec.ofNat_toNat, BitVec.setWidth_eq]
    rw [step_eq_accept (withFetchWord_edges _ _ _) (offer_rst _) (offer_cmdValid _)
      (withFetchWord_port _ _ _), offer_cmd, hword, accept_of_decode (decode_encode i)]
    rfl

/-- Settles O46: only a refused word sets `ILL` and only reset clears it. -/
theorem illIsSticky : Obligations.IllIsSticky := by
  unfold Obligations.IllIsSticky
  intro s t h
  refine ⟨?_, ?_, fun e es he hr hv hready hres => ?_⟩
  · intro hill
    obtain ⟨p, es, rfl, -⟩ | ⟨e, es, he, hr, -⟩ | ⟨e, es, i, -, -, -, -, -, hx⟩ |
      ⟨e, es, x, -, -, -, -, -, rfl⟩ :=
      step_next_cases h
    · exact .inl hill
    · exact .inr ⟨e, es, he, hr⟩
    · exact .inl ((exec_frame hx).1.trans hill)
    · exact .inl rfl
  · intro hill
    obtain ⟨p, es, rfl, -⟩ | ⟨e, es, -, -, rfl⟩ | ⟨e, es, i, -, -, -, -, -, hx⟩ |
      ⟨e, es, x, he, hr, hv, hp, hdec, -⟩ :=
      step_next_cases h
    · exact .inl hill
    · nomatch hill
    · exact .inl ((exec_frame hx).1.symm.trans hill)
    · exact .inr ⟨e, es, he, hr, hv, cmdReady_eq_true.2 hp, (reservedWord_iff _).2 ⟨x, hdec⟩⟩
  · rw [step_eq_accept he hr hv (cmdReady_eq_true.1 hready), accept_of_reserved hres] at h
    obtain rfl := Host.Outcome.next.inj h
    rfl

/-! ## The flags (R31) -/

/-- `WRAP` says that the last byte of the window passes the end of the digest (R72, R76). -/
theorem wraps_iff_window_passes {a : Alg} {off : BitVec 4} :
    wraps a off = true ↔ Config.digestLen a ≤ off.toNat + 3 := by
  have h : wraps a off = true ↔ Config.digestLen a - 4 < off.toNat := decide_eq_true_iff
  rw [h]
  cases a <;> simp only [Config.digestLen] <;> omega

section
variable {i : Instr} {s t : State} (h : exec i s = .next t)
include h

theorem derr_set_of_exec (h0 : s.dec.derr = false) (h1 : t.dec.derr = true) :
    ∃ c, i = .decChar c ∧ s.dec.dstate = .active ∧ alpha c = none := by
  obtain ht | ⟨-, ht⟩ | ⟨c, hi, ha, hc, -⟩ | ⟨c, v, -, -, -, ht⟩ | ⟨-, -, ht⟩ | ⟨-, -, ht⟩ :=
    exec_dec_cases h
  · simp [ht, h0] at h1
  · simp [ht] at h1
  · exact ⟨c, hi, ha, hc⟩
  · obtain ⟨-, hg⟩ | ⟨-, hg⟩ := feedGroup_dec v s <;> simp [ht, hg, h0] at h1
  · simp [ht, h0] at h1
  · simp [ht, h0] at h1

theorem derr_cleared_of_exec (h1 : s.dec.derr = true) (h0 : t.dec.derr = false) : i = .decStart := by
  obtain ht | ⟨hi, -⟩ | ⟨c, -, -, -, ht⟩ | ⟨c, v, -, -, -, ht⟩ | ⟨-, -, ht⟩ | ⟨-, -, ht⟩ :=
    exec_dec_cases h
  · simp [ht, h1] at h0
  · exact hi
  · simp [ht] at h0
  · obtain ⟨-, hg⟩ | ⟨-, hg⟩ := feedGroup_dec v s <;> simp [ht, hg, h1] at h0
  · simp [ht, h1] at h0
  · simp [ht, h1] at h0

theorem tload_set_of_exec (h0 : s.tru.tload = false) (h1 : t.tru.tload = true) :
    ∃ a, i = .truStart a := by
  obtain ht | ⟨a, hi, -⟩ | ⟨b, -, -, -, _, ht⟩ | ⟨-, -, -, ht⟩ := exec_tru_cases h
  · simp [ht, h0] at h1
  · exact ⟨a, hi⟩
  · simp [ht, h0] at h1
  · simp [ht] at h1

theorem tload_cleared_of_exec (h1 : s.tru.tload = true) (h0 : t.tru.tload = false) :
    i = .truExec ∧ s.tru.dcnt.toNat = Config.digestLen s.tru.alg := by
  obtain ht | ⟨a, -, ht⟩ | ⟨b, -, -, -, _, ht⟩ | ⟨hi, -, hfull, -⟩ := exec_tru_cases h
  · simp [ht, h1] at h0
  · simp [ht] at h0
  · simp [ht, h1] at h0
  · exact ⟨hi, hfull⟩

theorem wrap_set_of_exec (h0 : s.tru.wrap = false) (h1 : t.tru.wrap = true) :
    i = .truExec ∧ s.tru.tload = true ∧ Config.digestLen s.tru.alg ≤ t.tru.offset.toNat + 3 := by
  obtain ht | ⟨a, -, ht⟩ | ⟨b, -, -, -, _, ht⟩ | ⟨hi, hl, -, ht⟩ := exec_tru_cases h
  · simp [ht, h0] at h1
  · simp [ht] at h1
  · simp [ht, h0] at h1
  · rw [ht] at h1 ⊢
    exact ⟨hi, hl, wraps_iff_window_passes.1 h1⟩

theorem wrap_cleared_of_exec (h1 : s.tru.wrap = true) (h0 : t.tru.wrap = false) :
    (∃ a, i = .truStart a) ∨
    (i = .truExec ∧ s.tru.tload = true ∧ t.tru.offset.toNat + 3 < Config.digestLen s.tru.alg) := by
  obtain ht | ⟨a, hi, -⟩ | ⟨b, -, -, -, _, ht⟩ | ⟨hi, hl, -, ht⟩ := exec_tru_cases h
  · simp [ht, h1] at h0
  · exact .inl ⟨a, hi⟩
  · simp [ht, h1] at h0
  · rw [ht] at h0 ⊢
    refine .inr ⟨hi, hl, Nat.lt_of_not_le fun hle => ?_⟩
    nomatch (wraps_iff_window_passes.2 hle).symm.trans h0

theorem tvalid_set_of_exec (h0 : s.tru.tvalid = false) (h1 : t.tru.tvalid = true) :
    i = .truExec ∧ s.tru.tload = true ∧ s.tru.dcnt.toNat = Config.digestLen s.tru.alg := by
  obtain ht | ⟨a, -, ht⟩ | ⟨b, -, -, -, _, ht⟩ | ⟨hi, hl, hfull, -⟩ := exec_tru_cases h
  · simp [ht, h0] at h1
  · simp [ht] at h1
  · simp [ht, h0] at h1
  · exact ⟨hi, hl, hfull⟩

theorem tvalid_cleared_of_exec (h1 : s.tru.tvalid = true) (h0 : t.tru.tvalid = false) :
    ∃ a, i = .truStart a := by
  obtain ht | ⟨a, hi, -⟩ | ⟨b, -, -, -, _, ht⟩ | ⟨-, -, -, ht⟩ := exec_tru_cases h
  · simp [ht, h1] at h0
  · exact ⟨a, hi⟩
  · simp [ht, h1] at h0
  · simp [ht] at h0

end

/-- Settles O47: the flags one by one. -/
theorem flagsChangeOnlyAsListed : Obligations.FlagsChangeOnlyAsListed := by
  unfold Obligations.FlagsChangeOnlyAsListed
  intro i s t h
  exact ⟨derr_set_of_exec h, derr_cleared_of_exec h, tload_set_of_exec h, tload_cleared_of_exec h,
    wrap_set_of_exec h, wrap_cleared_of_exec h, tvalid_set_of_exec h, tvalid_cleared_of_exec h,
    (exec_frame h).1⟩

end Sys2Proof.Machine
end

section
/-! SUPPORT. The readback words (R29, R30, R78 to R80), reset's values (R36) and the pins (R20, R83). -/

namespace Sys2Proof.Machine

theorem statusWord_bits (s : State) :
    (statusWord s).getLsbD 2 = s.dec.derr ∧ (statusWord s).getLsbD 3 = false ∧
    (statusWord s).getLsbD 7 = false ∧ (statusWord s).getLsbD 16 = s.tru.tload ∧
    (statusWord s).getLsbD 17 = decide (s.tru.alg = .md5) ∧
    (statusWord s).getLsbD 23 = s.tru.wrap ∧ (statusWord s).getLsbD 28 = s.tru.tvalid ∧
    (statusWord s).getLsbD 29 = s.ill := by
  have hbit : ∀ b, (bit b).getLsbD 0 = b := by decide
  have halg : (algFlag s.tru.alg).getLsbD 0 = decide (s.tru.alg = .md5) := by
    cases s.tru.alg <;> rfl
  unfold statusWord
  refine ⟨?_, ?_, ?_, ?_, ?_, ?_, ?_, ?_⟩ <;>
    (repeat rw [BitVec.getLsbD_append, if_neg (by decide)]) <;>
    rw [BitVec.getLsbD_append, if_pos (by decide)]
  case refine_2 => rfl
  case refine_3 => rfl
  case refine_5 => exact halg
  all_goals exact hbit _

theorem statusWord_fields (s : State) :
    (statusWord s).extractLsb' 0 2 = dstateCode s.dec.dstate ∧
    (statusWord s).extractLsb' 4 3 = s.dec.nbits ∧ (statusWord s).extractLsb' 8 8 = s.dec.errchar ∧
    (statusWord s).extractLsb' 18 5 = s.tru.dcnt ∧ (statusWord s).extractLsb' 24 4 = s.tru.offset ∧
    (statusWord s).extractLsb' 30 2 = 0 := by
  unfold statusWord
  refine ⟨?_, ?_, ?_, ?_, ?_, ?_⟩ <;>
    repeat rw [BitVec.extractLsb'_append_eq_of_le (by decide)]
  case refine_6 => rfl
  all_goals exact BitVec.extractLsb'_append_eq_right

/-- Settles O31: each field of the word is found by its place among the fields appended below it. -/
theorem statusWordLayout : Obligations.StatusWordLayout := by
  unfold Obligations.StatusWordLayout
  intro s
  obtain ⟨hderr, h3, h7, htload, halg, hwrap, htvalid, hill⟩ := statusWord_bits s
  obtain ⟨hdstate, hnbits, herrchar, hdcnt, hoffset, h30⟩ := statusWord_fields s
  have hcode : (dstateCode s.dec.dstate).toNat =
      if s.dec.dstate = .idle then 0 else if s.dec.dstate = .active then 1 else 2 := by
    cases s.dec.dstate <;> rfl
  exact ⟨statusWord s, rfl, hdstate ▸ hcode, hderr, h3, hnbits, h7, herrchar, htload, halg, hdcnt, hwrap,
    hoffset, htvalid, hill, h30⟩

/-- Settles O32: the ACC word is `NBITS` above the eight bits that hold a 0 and `ACC`. -/
theorem readbackWords : Obligations.ReadbackWords := by
  unfold Obligations.ReadbackWords
  intro s
  have hacc : accWord s.dec = BitVec.ofNat 32 (s.dec.nbits.toNat * 2 ^ 8 + s.dec.acc.toNat) := by
    have ha := s.dec.acc.isLt
    have hn := s.dec.nbits.isLt
    have hz : (0#1).toNat < 2 ^ 1 := by decide
    apply BitVec.eq_of_toNat_eq
    rw [accWord, BitVec.toNat_append, ← Nat.shiftLeft_add_eq_or_of_lt ha, BitVec.toNat_append,
      ← Nat.shiftLeft_add_eq_or_of_lt hz, BitVec.toNat_ofNat, BitVec.toNat_setWidth]
    simp only [Nat.shiftLeft_eq, BitVec.toNat_ofNat]
    omega
  exact ⟨rfl, rfl, by rw [← hacc]; rfl⟩

/-- Settles O1: each value is written out in `State.reset`. -/
theorem resetLeavesEveryRegisterDefined : Obligations.ResetLeavesEveryRegisterDefined := by
  unfold Obligations.ResetLeavesEveryRegisterDefined
  have hdbuf : ∀ i : Fin 20, State.reset.tru.dbuf[i] = 0 := by decide
  have hstatus : statusWord State.reset = 0x00000000 := by decide
  exact ⟨rfl, rfl, rfl, rfl, rfl, rfl, rfl, rfl, rfl, hdbuf, rfl, rfl, rfl, rfl, rfl, rfl, rfl, hstatus⟩

/-- Settles O48: the pins are read from the port, which is in one phase at a time. -/
theorem responsePins : Obligations.ResponsePins := by
  unfold Obligations.ResponsePins
  refine fun s c d => ⟨fun hp => ?_, rspValid_eq_true.1⟩
  have hpins := rspPins_eq_some.2 hp
  refine ⟨rspValid_eq_true.2 ⟨_, hp⟩, by simp [State.cmdReady, hp], by simp [State.rspData, hpins], ?_⟩
  cases c <;> simp [State.rspCode, hpins, codeBits]

end Sys2Proof.Machine
end

section
/-! SUPPORT. One command at the signal level (R98, R101): a run of edges through the phases of the port. -/

namespace Sys2Proof.Machine

/-! ## Runs of edges -/

/-- Edges at which the handshake does not move in the port's phase are used up and do nothing else. -/
theorem run_of_handshake_stays (s : State) {ws : List Edge} (es : List Edge)
    (hstay : ∀ e ∈ ws, e.rst = false ∧ ∀ u : State, u.port = s.port → handshake e u = .next u)
    {k : Nat} (hk : k ≤ ws.length) : core.run k { s with edges := ws ++ es } =
      .next { s with edges := ws.drop k ++ es } := by
  induction k generalizing ws with
  | zero => rfl
  | succ k ih =>
    cases ws with
    | nil => simp at hk
    | cons e ws =>
      obtain ⟨hr, hh⟩ := hstay e List.mem_cons_self
      have hstep : step { s with edges := (e :: ws) ++ es } = .next { s with edges := ws ++ es } :=
        (step_eq_handshake rfl hr).trans (hh { s with edges := ws ++ es } rfl)
      rw [run_succ k hstep]
      exact ih (fun e' he' => hstay e' (List.mem_cons_of_mem _ he')) (by simpa using hk)

theorem handshake_of_busy {e : Edge} {s : State} {r : Response} (hp : s.port = .busy r) :
    handshake e s = .next { s with port := if e.done then .responding r else .busy r } := by
  simp only [handshake, hp]

theorem handshake_of_responding {e : Edge} {s : State} {r : Response} (hp : s.port = .responding r) :
    handshake e s = .next { s with port :=
      if e.rspReady then (if e.done then .ready else .recovering) else .responding r } := by
  simp only [handshake, hp]

theorem handshake_of_recovering {e : Edge} {s : State} (hp : s.port = .recovering) :
    handshake e s = .next { s with port := if e.done then .ready else .recovering } := by
  simp only [handshake, hp]

theorem handshake_busy_stays {e : Edge} {s : State} {r : Response} (hp : s.port = .busy r)
    (hd : e.done = false) : handshake e s = .next s := by
  rw [handshake_of_busy hp, hd]
  simp [← hp]

theorem handshake_responding_stays {e : Edge} {s : State} {r : Response} (hp : s.port = .responding r)
    (hn : e.rspReady = false) : handshake e s = .next s := by
  rw [handshake_of_responding hp, hn]
  simp [← hp]

theorem handshake_recovering_stays {e : Edge} {s : State} (hp : s.port = .recovering)
    (hd : e.done = false) : handshake e s = .next s := by
  rw [handshake_of_recovering hp, hd]
  simp [← hp]

section
variable {s : State} {e : Edge} {es : List Edge} {r : Response} (he : s.edges = e :: es)
  (hr : e.rst = false)
include he hr

/-- The edge at which a computed response becomes valid. -/
theorem step_of_busy_done (hp : s.port = .busy r) (hd : e.done = true) :
    step s = .next { s with port := .responding r, edges := es } := by
  have hmove := handshake_of_busy (e := e) (s := { s with edges := es }) hp
  rwa [hd, if_pos rfl, ← step_eq_handshake he hr] at hmove

/-- The edge at which a valid response is taken. -/
theorem step_of_responding_taken (hp : s.port = .responding r) (hd : e.rspReady = true) :
    step s = .next { s with port := if e.done then .ready else .recovering, edges := es } := by
  have hmove := handshake_of_responding (e := e) (s := { s with edges := es }) hp
  rwa [hd, if_pos rfl, ← step_eq_handshake he hr] at hmove

/-- The edge at which `cmd_ready` rises after the response was taken. -/
theorem step_of_recovering_done (hp : s.port = .recovering) (hd : e.done = true) :
    step s = .next { s with port := .ready, edges := es } := by
  have hmove := handshake_of_recovering (e := e) (s := { s with edges := es }) hp
  rwa [hd, if_pos rfl, ← step_eq_handshake he hr] at hmove

end

/-- Accepting a word does not depend on the edges still to come, and leaves them. -/
theorem accept_with_edges {w : Cmd} {s t : State} (h : accept w s = .next t) (es : List Edge) :
    accept w { s with edges := es } = .next { t with edges := es } := by
  obtain ⟨i, hdec, hx⟩ | ⟨x, hdec, hx⟩ := accept_cases w s
  · rw [accept_of_decode hdec]
    obtain ⟨d, q, r, hloc⟩ | ⟨f, hloc⟩ := exec_interface_local i s
    · obtain rfl := eq_of_next h (hx.trans (hloc s.port s.edges))
      exact hloc s.port es
    · nomatch (h.symm.trans hx).trans (hloc s.port s.edges)
  · obtain rfl := eq_of_next h hx
    simp only [accept, hdec]
    rfl

/-! ## The phases of one command -/

section
variable {s t : State} {a f g : Edge} {waits holds back es : List Edge} {r : Response}
  (hp : s.port = .ready) (he : s.edges = a :: (waits ++ f :: (holds ++ g :: (back ++ es))))
  (hc : CommandTraffic a f g waits holds back) (ha : accept a.cmd s = .next t) (hr : t.port = .busy r)
include hp he hc ha hr

/-- From acceptance on the response is computed and not valid. -/
theorem run_to_busy {k : Nat} (hk : k ≤ waits.length) : core.run (k + 1) s =
    .next { t with edges := waits.drop k ++ f :: (holds ++ g :: (back ++ es)) } := by
  have hacc : step s = .next { t with edges := waits ++ f :: (holds ++ g :: (back ++ es)) } := by
    rw [step_eq_accept he hc.offered.1 hc.offered.2 hp, accept_with_edges ha]
  rw [run_succ k hacc]
  exact run_of_handshake_stays t _ (fun e hmem =>
    ⟨(hc.waiting e hmem).1, fun u hu => handshake_busy_stays (hu.trans hr) (hc.waiting e hmem).2⟩) hk

/-- From edge `waits + 1` after acceptance the response is valid. -/
theorem run_to_responding {k : Nat} (hk : k ≤ holds.length) : core.run (waits.length + 2 + k) s =
    .next { t with port := .responding r, edges := holds.drop k ++ g :: (back ++ es) } := by
  have hbusy := run_to_busy hp he hc ha hr (Nat.le_refl waits.length)
  rw [List.drop_length, List.nil_append] at hbusy
  have hvalid : step { t with edges := f :: (holds ++ g :: (back ++ es)) } =
      .next { t with port := .responding r, edges := holds ++ g :: (back ++ es) } :=
    step_of_busy_done rfl hc.valid.1 hr hc.valid.2
  rw [show waits.length + 2 + k = waits.length + 1 + (k + 1) by omega, run_add _ hbusy,
    run_succ k hvalid]
  exact run_of_handshake_stays { t with port := .responding r } _ (fun e hmem =>
    ⟨(hc.held e hmem).1, fun u hu => handshake_responding_stays hu (hc.held e hmem).2⟩) hk

/-- The edge that takes the response. -/
theorem run_to_taken : core.run (waits.length + holds.length + 3) s =
    .next { t with port := if g.done then .ready else .recovering, edges := back ++ es } := by
  have hheld := run_to_responding hp he hc ha hr (Nat.le_refl holds.length)
  rw [List.drop_length, List.nil_append] at hheld
  rw [show waits.length + holds.length + 3 = waits.length + 2 + holds.length + (0 + 1) by omega,
    run_add _ hheld, run_succ 0 (step_of_responding_taken rfl hc.taken.1 rfl hc.taken.2)]
  rfl

/-- Until `cmd_ready` rises the block recovers. -/
theorem run_to_recovering {k : Nat} (hk : k < back.length) :
    core.run (waits.length + holds.length + 3 + k) s =
      .next { t with port := .recovering, edges := back.drop k ++ es } := by
  have htaken := run_to_taken hp he hc ha hr
  obtain ⟨-, rfl⟩ | ⟨hg, ws, e, rfl, hws, -, -⟩ := hc.readyAgain
  · simp at hk
  · rw [hg] at htaken
    rw [List.length_append, List.length_singleton, Nat.lt_succ_iff] at hk
    rw [run_add k htaken, List.drop_append_of_le_length hk, List.append_assoc, List.append_assoc]
    exact run_of_handshake_stays { t with port := .recovering } _ (fun x hmem =>
      ⟨(hws x hmem).1, fun u hu => handshake_recovering_stays hu (hws x hmem).2⟩) hk

/-- At the end `cmd_ready` is 1 and the registers are those the command left. -/
theorem run_to_ready : core.run (waits.length + holds.length + back.length + 3) s =
    .next { t with port := .ready, edges := es } := by
  obtain ⟨hg, hback⟩ | ⟨-, ws, e, hback, -, hrst, hdone⟩ := hc.readyAgain
  · have htaken := run_to_taken hp he hc ha hr
    rw [hg, hback] at htaken
    rw [hback]
    exact htaken
  · have hlen : back.length = ws.length + 1 := by rw [hback, List.length_append, List.length_singleton]
    have hlast := run_to_recovering hp he hc ha hr (k := ws.length) (by omega)
    have hdrop : back.drop ws.length ++ es = e :: es := by rw [hback, List.drop_left]; rfl
    rw [hdrop] at hlast
    rw [show waits.length + holds.length + back.length + 3 =
        waits.length + holds.length + 3 + ws.length + (0 + 1) by omega, run_add _ hlast,
      run_succ 0 (step_of_recovering_done rfl hrst rfl hdone)]
    rfl

end

/-- The edges of a script's command are one command's traffic. -/
theorem commandEdges_traffic (w : Cmd) (wait hold n : Nat) :
    CommandTraffic (offer w) finish { quiet with rspReady := true, done := decide (n = 0) }
      (List.replicate wait quiet) (List.replicate hold quiet) (recoveryEdges n) where
  offered := ⟨rfl, rfl⟩
  waiting e he := by obtain rfl := List.eq_of_mem_replicate he; exact ⟨rfl, rfl⟩
  valid := ⟨rfl, rfl⟩
  held e he := by obtain rfl := List.eq_of_mem_replicate he; exact ⟨rfl, rfl⟩
  taken := ⟨rfl, rfl⟩
  readyAgain := by
    cases n with
    | zero => exact .inl ⟨rfl, rfl⟩
    | succ n =>
      exact .inr ⟨rfl, List.replicate n quiet, finish, rfl,
        fun x hx => by obtain rfl := List.eq_of_mem_replicate hx; exact ⟨rfl, rfl⟩, rfl, rfl⟩

/-- Settles O53: the phases one after the other; only `responding` has `rsp_valid = 1`, and only `ready`
has `cmd_ready = 1`. -/
theorem signalLevelCommandCompletes : Obligations.SignalLevelCommandCompletes := by
  unfold Obligations.SignalLevelCommandCompletes
  refine ⟨fun s t a f g waits holds back es r hp he hc ha hr =>
    ⟨fun k hk => ?_, fun k hk => ?_, fun k hk => ?_, run_to_ready hp he hc ha hr⟩,
    fun w wait hold n es => ?_⟩
  · exact ⟨_, run_to_busy hp he hc ha hr hk, by simp [State.rspValid, State.rspPins, hr],
      by simp [State.cmdReady, hr]⟩
  · exact ⟨_, run_to_responding hp he hc ha hr hk, rfl, rfl⟩
  · exact ⟨_, run_to_recovering hp he hc ha hr hk, rfl, rfl⟩
  · exact ⟨_, _, _, _, _, _, by simp [commandEdges], commandEdges_traffic w wait hold n, rfl,
      List.length_replicate, List.length_replicate, recoveryEdges_length n⟩

end Sys2Proof.Machine
end

section
/-! SUPPORT. The one fault (R27, R40), and that `NOP` and the reads can be issued again (R47). -/

namespace Sys2Proof.Machine

/-- A `TRU_BYTE` that counts a byte beyond `DBUF[19]` stops. -/
theorem execTruByte_of_beyond {b : Byte} {s : State} (hl : s.tru.tload = true)
    (hne : s.tru.dcnt.toNat ≠ Config.digestLen s.tru.alg) (h20 : 20 ≤ s.tru.dcnt.toNat) :
    execTruByte b s = .fault (.dbufIndex s.tru.dcnt.toNat) := by
  obtain ⟨h, -⟩ | ⟨-, -, -, h'⟩ | ⟨-, -, hlt, -⟩ := execTruByte_cases b s
  · simp [hl, hne] at h
  · exact h'
  · omega

/-- Settles O25: a command that faults is the `TRU_BYTE` of `exec_shape`, and that one does fault. -/
theorem onlyStoreBeyondBufferFaults : Obligations.OnlyStoreBeyondBufferFaults := by
  unfold Obligations.OnlyStoreBeyondBufferFaults
  refine fun i s f => ⟨fun h => ?_, ?_⟩
  · obtain ⟨d, q, r, h'⟩ | ⟨b, hb, hl, hne, h20, h'⟩ := exec_shape i s
    · nomatch h.symm.trans h'
    · exact ⟨⟨b, hb⟩, hl, hne, h20, Host.Outcome.fault.inj (h.symm.trans h')⟩
  · rintro ⟨⟨b, rfl⟩, hl, hne, h20, rfl⟩
    exact execTruByte_of_beyond hl hne h20

/-- `NOP` and the reads answer `OK` (R77, R81). -/
theorem code_of_controlCommand {i : Instr} {s t : State} {r : Response} (hi : ControlCommand i)
    (h : exec i s = .next t) (hp : t.port = .busy r) : r.code = .ok := by
  obtain rfl | rfl | rfl | rfl | rfl := hi <;>
    obtain rfl := Host.Outcome.next.inj h <;> obtain rfl := Port.busy.inj hp <;> rfl

/-- Settles O33: the response does not depend on the port, which is all the first issue changes. -/
theorem readsAreIdempotent : Obligations.ReadsAreIdempotent := by
  unfold Obligations.ReadsAreIdempotent
  intro i s hi
  have hcontrol : ControlCommand i := by simpa using hi
  obtain ⟨r, h⟩ := exec_control_local hcontrol s
  have hfirst : exec i s = .next { s with port := .busy r } := h s.port s.edges
  have hagain : exec i { s with port := .busy r } = .next { s with port := .busy r } :=
    h (.busy r) s.edges
  refine ⟨r, code_of_controlCommand hcontrol hfirst rfl, hfirst, ?_⟩
  rw [issueAll_cons (issue_eq hfirst rfl), issueAll_singleton (issue_eq hagain rfl)]
  rfl

end Sys2Proof.Machine
end

section
/-! SUPPORT. The words of the commands (R51 to R55): a word is its three fields, the round trip from the
word, the rows of the opcode table, and how many words are legal. -/

namespace Sys2Proof.Machine

/-- Settles O8: no field of a command is lost in its word. -/
theorem decodeEncodeAgree : Obligations.DecodeEncodeAgree := by
  unfold Obligations.DecodeEncodeAgree
  exact fun i _ => decode_encode i

/-- Settles O5: each word is the word of its command. -/
theorem specWordsDecode : Obligations.SpecWordsDecode := by
  unfold Obligations.SpecWordsDecode
  exact ⟨decode_encode .nop, decode_encode .decStart, decode_encode (.decChar 0x4D),
    decode_encode .decEnd, decode_encode (.truStart .sha1), decode_encode (.truStart .md5),
    decode_encode (.truByte 0x75), decode_encode .truExec, decode_encode .rdStatus,
    decode_encode .rdResult, decode_encode .rdOutcnt, decode_encode .rdAcc⟩

/-! ## A word and its fields (R51) -/

/-- A word is made of its three fields. -/
theorem cmdWord_fields (w : Cmd) : cmdWord (opField w) (subField w) (dataField w) = w := by
  have hhigh : opField w ++ subField w = w.extractLsb' 8 8 :=
    BitVec.extractLsb'_append_extractLsb'_eq_extractLsb' rfl
  rw [cmdWord, hhigh]
  exact (BitVec.extractLsb'_append_extractLsb'_eq_extractLsb' rfl).trans BitVec.extractLsb'_eq_self

theorem cmdWord_and (op op' sub sub' : BitVec 4) (data data' : Byte) :
    cmdWord op sub data &&& cmdWord op' sub' data'
      = cmdWord (op &&& op') (sub &&& sub') (data &&& data') :=
  BitVec.and_append.trans (congrArg (· ++ (data &&& data')) BitVec.and_append)

theorem cmdWord_inj {op op' sub sub' : BitVec 4} {data data' : Byte} :
    cmdWord op sub data = cmdWord op' sub' data' ↔ op = op' ∧ sub = sub' ∧ data = data' := by
  refine ⟨fun h => ⟨?_, ?_, ?_⟩, fun ⟨hop, hsub, hdata⟩ => by rw [hop, hsub, hdata]⟩
  · rw [← opField_cmdWord op sub data, h, opField_cmdWord]
  · rw [← subField_cmdWord op sub data, h, subField_cmdWord]
  · rw [← dataField_cmdWord op sub data, h, dataField_cmdWord]

/-- A masked comparison of a word is one of each field. -/
theorem and_cmdWord_iff {w : Cmd} {mop op msub sub : BitVec 4} {mdata data : Byte} :
    w &&& cmdWord mop msub mdata = cmdWord op sub data ↔
      opField w &&& mop = op ∧ subField w &&& msub = sub ∧ dataField w &&& mdata = data := by
  rw [← cmdWord_inj, ← cmdWord_and, cmdWord_fields]

/-! ## From the word to the command and back (R54) -/

theorem withData_ok_iff {sub : BitVec 4} {i j : Instr} :
    withData sub j = .ok i ↔ sub = 0 ∧ j = i := by
  unfold withData
  split <;> simp_all

theorem withoutData_ok_iff {sub mask : BitVec 4} {data : Byte} {i j : Instr} :
    withoutData sub mask data j = .ok i ↔ sub &&& mask = 0 ∧ data = 0 ∧ j = i := by
  unfold withoutData
  split
  case isTrue => simp_all
  case isFalse => split <;> simp_all

/-- The operand bit of `TRU_START` is the whole of its `SUB` (R52). -/
theorem encode_truStart_of_sub : ∀ sub : BitVec 4, sub &&& 0b1110 = 0 →
    encode (.truStart (algOfBit (sub.extractLsb' 0 1))) = cmdWord 0x4 sub 0 := by decide

/-- The register selector of an `RD` command is the whole of its `SUB` (R52). -/
theorem encode_rdOfSel_of_sub : ∀ sub : BitVec 4, sub &&& 0b1100 = 0 →
    encode (rdOfSel (sub.extractLsb' 0 2)) = cmdWord 0x7 sub 0 := by decide

theorem encode_of_withData {op sub : BitVec 4} {data : Byte} {i j : Instr}
    (hj : encode j = cmdWord op 0 data) (h : withData sub j = .ok i) :
    encode i = cmdWord op sub data := by
  obtain ⟨rfl, rfl⟩ := withData_ok_iff.1 h
  exact hj

theorem encode_of_withoutData {op sub mask : BitVec 4} {data : Byte} {i j : Instr}
    (hj : sub &&& mask = 0 → encode j = cmdWord op sub 0) (h : withoutData sub mask data j = .ok i) :
    encode i = cmdWord op sub data := by
  obtain ⟨hsub, rfl, rfl⟩ := withoutData_ok_iff.1 h
  exact hj hsub

/-- No bit of a legal word is ignored: in each row of R54 the fields that hold no operand are fixed. -/
theorem encode_of_decode {w : Cmd} {i : Instr} (h : decode w = .ok i) : encode i = w := by
  have hbare {op : BitVec 4} (h0 : subField w &&& 0b1111 = 0) :
      cmdWord op 0 0 = cmdWord op (subField w) 0 := by
    have hsub : subField w = 0 := BitVec.eq_of_toNat_eq ((subMask_eq_zero_iff _).1.1 h0)
    rw [hsub]
  unfold decode at h
  dsimp only at h
  rw [← cmdWord_fields w]
  split at h <;> rename_i hop
  case h_1 =>
    rw [BitVec.eq_of_toNat_eq (y := 0x0#4) hop]; exact encode_of_withoutData hbare h
  case h_2 =>
    rw [BitVec.eq_of_toNat_eq (y := 0x1#4) hop]; exact encode_of_withoutData hbare h
  case h_3 =>
    rw [BitVec.eq_of_toNat_eq (y := 0x2#4) hop]; exact encode_of_withData rfl h
  case h_4 =>
    rw [BitVec.eq_of_toNat_eq (y := 0x3#4) hop]; exact encode_of_withoutData hbare h
  case h_5 =>
    rw [BitVec.eq_of_toNat_eq (y := 0x4#4) hop]
    exact encode_of_withoutData (encode_truStart_of_sub _) h
  case h_6 =>
    rw [BitVec.eq_of_toNat_eq (y := 0x5#4) hop]; exact encode_of_withData rfl h
  case h_7 =>
    rw [BitVec.eq_of_toNat_eq (y := 0x6#4) hop]; exact encode_of_withoutData hbare h
  case h_8 =>
    rw [BitVec.eq_of_toNat_eq (y := 0x7#4) hop]
    exact encode_of_withoutData (encode_rdOfSel_of_sub _) h
  case h_9 => cases h

theorem decode_eq_ok_iff {w : Cmd} {i : Instr} : decode w = .ok i ↔ encode i = w :=
  ⟨encode_of_decode, fun h => h ▸ decode_encode i⟩

/-- The fields of a command are always in range, so that the check holds of each (R52). -/
theorem wf_eq_true (i : Instr) : i.wf = true := by cases i <;> rfl

/-- Settles O9: the encoder gives back the word that was decoded. -/
theorem encodeDecodeAgree : Obligations.EncodeDecodeAgree := by
  unfold Obligations.EncodeDecodeAgree
  exact fun w i h => ⟨wf_eq_true i, encode_of_decode h⟩

/-! ## The rows of the opcode table (R53) -/

/-- The word of every command lies in the command's row. -/
theorem rowOf_selects_encode (i : Instr) : (rowOf i).selects (encode i) = true := by
  cases i
  case nop => exact Laws.EncodeRow.nop.2
  case decStart => exact Laws.EncodeRow.decStart.2
  case decChar c => exact (Laws.EncodeRow.decChar c).2
  case decEnd => exact Laws.EncodeRow.decEnd.2
  case truStart a => exact (Laws.EncodeRow.truStart a).2
  case truByte b => exact (Laws.EncodeRow.truByte b).2
  case truExec => exact Laws.EncodeRow.truExec.2
  case rdStatus => exact Laws.EncodeRow.rdStatus.2
  case rdResult => exact Laws.EncodeRow.rdResult.2
  case rdOutcnt => exact Laws.EncodeRow.rdOutcnt.2
  case rdAcc => exact Laws.EncodeRow.rdAcc.2

theorem rowOf_mem_opcodeTable (i : Instr) : rowOf i ∈ opcodeTable := by
  cases i <;> simp [opcodeTable, rowOf]

theorem mem_opcodeTable {r : Row} (h : r ∈ opcodeTable) : ∃ i, rowOf i = r := by
  have hmap : opcodeTable = [.nop, .decStart, .decChar 0, .decEnd, .truStart .sha1, .truByte 0, .truExec,
    .rdStatus, .rdResult, .rdOutcnt, .rdAcc].map rowOf := rfl
  rw [hmap, List.mem_map] at h
  obtain ⟨i, -, hi⟩ := h
  exact ⟨i, hi⟩

/-- A row without operand selects one word alone. -/
theorem eq_of_selects_full {m : String} {p w : Cmd} (h : Row.selects ⟨m, p, 0xFFFF⟩ w = true) :
    p = w := by
  have h' : w &&& BitVec.allOnes 16 = p := beq_iff_eq.1 h
  rw [← h', BitVec.and_allOnes]

/-- A row whose operand is `DATA` fixes `OP` and leaves `SUB` at 0. -/
theorem eq_of_selects_data {m : String} {op : BitVec 4} {w : Cmd}
    (h : Row.selects ⟨m, cmdWord op 0 0, 0xFF00⟩ w = true) : cmdWord op 0 (dataField w) = w := by
  have h' : w &&& cmdWord (BitVec.allOnes 4) (BitVec.allOnes 4) 0 = cmdWord op 0 0 := beq_iff_eq.1 h
  simp only [and_cmdWord_iff, BitVec.and_allOnes] at h'
  rw [← h'.1, ← h'.2.1, cmdWord_fields]

/-- The row of `TRU_START` leaves one bit of `SUB` free. -/
theorem eq_of_selects_truStart {w : Cmd} (h : (rowOf (.truStart .sha1)).selects w = true) :
    ∃ a, encode (.truStart a) = w := by
  have h' : w &&& cmdWord (BitVec.allOnes 4) 0b1110 (BitVec.allOnes 8) = cmdWord 0x4 0 0 :=
    beq_iff_eq.1 h
  simp only [and_cmdWord_iff, BitVec.and_allOnes] at h'
  obtain ⟨hop, hsub, hdata⟩ := h'
  refine ⟨_, (encode_truStart_of_sub _ hsub).trans ?_⟩
  rw [← hop, ← hdata, cmdWord_fields]

/-- A row selects only the words of its commands. -/
theorem exists_encode_of_selects {j : Instr} {w : Cmd} (h : (rowOf j).selects w = true) :
    ∃ i, encode i = w ∧ rowOf i = rowOf j := by
  cases j
  case decChar c => exact ⟨.decChar (dataField w), eq_of_selects_data h, rfl⟩
  case truByte b => exact ⟨.truByte (dataField w), eq_of_selects_data h, rfl⟩
  case truStart a =>
    obtain ⟨a', ha⟩ := eq_of_selects_truStart h
    exact ⟨.truStart a', ha, rfl⟩
  all_goals exact ⟨_, eq_of_selects_full h, rfl⟩

theorem exists_decode_of_selects {r : Row} {w : Cmd} (hr : r ∈ opcodeTable)
    (h : r.selects w = true) : ∃ i, decode w = .ok i ∧ rowOf i = r := by
  obtain ⟨j, rfl⟩ := mem_opcodeTable hr
  obtain ⟨i, hi, hrow⟩ := exists_encode_of_selects h
  exact ⟨i, decode_eq_ok_iff.2 hi, hrow⟩

/-! ## How many words are legal (R53, R55) -/

/-- Every byte, once. -/
def allBytes : List Byte := (List.finRange (2 ^ 8)).map BitVec.ofFin

theorem mem_allBytes (b : Byte) : b ∈ allBytes :=
  List.mem_map.2 ⟨b.toFin, List.mem_finRange _, rfl⟩

theorem nodup_allBytes : allBytes.Nodup :=
  (List.nodup_finRange _).map fun _ _ h => BitVec.ofFin.inj h

/-- The commands without a byte as operand. -/
def shortCommands : List Instr :=
  [.nop, .decStart, .decEnd, .truStart .sha1, .truStart .md5, .truExec, .rdStatus, .rdResult, .rdOutcnt,
    .rdAcc]

/-- Every command, once. -/
def allCommands : List Instr := shortCommands ++ (allBytes.map .decChar ++ allBytes.map .truByte)

theorem mem_allCommands (i : Instr) : i ∈ allCommands := by
  cases i
  case decChar c => simp [allCommands, mem_allBytes]
  case truByte b => simp [allCommands, mem_allBytes]
  case truStart a => cases a <;> simp [allCommands, shortCommands]
  all_goals simp [allCommands, shortCommands]

theorem nodup_allCommands : allCommands.Nodup := by
  have hshort : shortCommands.Nodup := by decide
  have hchar : (allBytes.map Instr.decChar).Nodup :=
    nodup_allBytes.map fun _ _ h => Instr.decChar.inj h
  have hbyte : (allBytes.map Instr.truByte).Nodup :=
    nodup_allBytes.map fun _ _ h => Instr.truByte.inj h
  have hdisjoint : List.Disjoint (allBytes.map Instr.decChar) (allBytes.map Instr.truByte) := by
    simp [List.disjoint_left]
  refine hshort.append (hchar.append hbyte hdisjoint) ?_
  simp [shortCommands]

theorem length_allCommands : allCommands.length = 522 := by
  simp [allCommands, shortCommands, allBytes]

/-- The words that decode are the words of the commands. -/
theorem isSome_decodeTableWord_iff {n : Nat} (hn : n < 65536) :
    (decodeTableWord 16 n).isSome = true ↔ ∃ i, (encode i).toNat = n := by
  have hword : BitVec.ofNat 16 (n % 2 ^ 16) = BitVec.ofNat 16 n :=
    congrArg _ (Nat.mod_eq_of_lt hn)
  have hiff (i : Instr) : (encode i).toNat = n ↔ decode (BitVec.ofNat 16 n) = .ok i := by
    rw [decode_eq_ok_iff, ← BitVec.toNat_inj, BitVec.toNat_ofNat, Nat.mod_eq_of_lt hn]
  simp only [hiff, decodeTableWord, hword]
  cases decode (BitVec.ofNat 16 n) <;> simp

/-- As many words decode as there are commands. -/
theorem countP_legal_words :
    (List.range 65536).countP (fun n => (decodeTableWord 16 n).isSome) = 522 := by
  have hnodup : (allCommands.map fun i => (encode i).toNat).Nodup :=
    nodup_allCommands.map fun i j h => by
      have hword := congrArg decode (BitVec.eq_of_toNat_eq h)
      rw [decode_encode, decode_encode] at hword
      exact Except.ok.inj hword
  have hperm : ((List.range 65536).filter fun n => (decodeTableWord 16 n).isSome).Perm
      (allCommands.map fun i => (encode i).toNat) := by
    refine (List.perm_ext_iff_of_nodup (List.nodup_range.filter _) hnodup).2 fun n => ?_
    simp only [List.mem_filter, List.mem_range, List.mem_map, mem_allCommands, true_and]
    refine ⟨fun ⟨hn, h⟩ => (isSome_decodeTableWord_iff hn).1 h, fun ⟨i, hi⟩ => ?_⟩
    have hn : n < 65536 := hi ▸ (encode i).isLt
    exact ⟨hn, (isSome_decodeTableWord_iff hn).2 ⟨i, hi⟩⟩
  rw [List.countP_eq_length_filter, hperm.length_eq, List.length_map, length_allCommands]

theorem countP_isSome_add_countP_isNone {α β : Type} (f : α → Option β) (l : List α) :
    l.countP (fun a => (f a).isSome) + l.countP (fun a => (f a).isNone) = l.length := by
  refine (congrArg _ (List.countP_congr fun a _ => ?_)).trans
    (List.length_eq_countP_add_countP fun a => (f a).isSome).symm
  simp

/-- The other words are reserved. -/
theorem countP_reserved_words :
    (List.range 65536).countP (fun n => (decodeTableWord 16 n).isNone) = 65014 := by
  have h := countP_isSome_add_countP_isNone (decodeTableWord 16) (List.range 65536)
  rw [countP_legal_words, List.length_range] at h
  omega

/-- Settles O6: every row selects the words of its commands and no other. -/
theorem opcodeTableIsTheDecoder : Obligations.OpcodeTableIsTheDecoder := by
  unfold Obligations.OpcodeTableIsTheDecoder
  refine ⟨rfl, fun b => ⟨?_, ?_⟩, fun a => ?_, fun w i h => ?_, fun w r => exists_decode_of_selects,
    fun w r q hr hq hsr hsq => ?_, countP_legal_words⟩
  · exact decode_eq_ok_iff.2 rfl
  · exact decode_eq_ok_iff.2 rfl
  · revert a; decide
  · obtain rfl := decode_eq_ok_iff.1 h
    exact ⟨rowOf_mem_opcodeTable i, rowOf_selects_encode i⟩
  · obtain ⟨i, hi, rfl⟩ := exists_decode_of_selects hr hsr
    obtain ⟨j, hj, rfl⟩ := exists_decode_of_selects hq hsq
    rw [Except.ok.inj (hi.symm.trans hj)]

/-- Settles O7: the words the decoder refuses are those R55 lists, and each is refused alike. -/
theorem reservedWordsExactly : Obligations.ReservedWordsExactly := by
  unfold Obligations.ReservedWordsExactly
  exact ⟨reservedWord_iff, fun w s h => accept_of_reserved h, countP_reserved_words⟩

end Sys2Proof.Machine
end

section
/-! SUPPORT. The transaction `TRU.DIGEST` (R60), and the response of every command cell by cell (R58). -/

namespace Sys2Proof.Machine

/-! ## `TRU.DIGEST` (R60, R70 to R75) -/

/-- Dynamic truncation drops the top bit of the window (R75). -/
theorem dynamicTruncation_lt (ds : List Byte) : dynamicTruncation ds < 2 ^ 31 := by
  have hbyte (k : Nat) : (ds.getD (k % ds.length) 0).toNat < 2 ^ 8 := BitVec.isLt _
  unfold dynamicTruncation
  generalize (ds.getD ((ds.length - 1) % ds.length) 0).toNat % 16 = off
  have h1 := hbyte (off + 1)
  have h2 := hbyte (off + 2)
  have h3 := hbyte (off + 3)
  dsimp only
  omega

/-- Settles O28: the transaction of `issueAll_truDigest`, with what TRU then holds. -/
theorem digestTransaction : Obligations.DigestTransaction := by
  unfold Obligations.DigestTransaction
  refine ⟨fun s a ds hlen => ?_, fun a ds hlen => ?_⟩
  · have his := truDigest_eq_some.2 ⟨hlen, rfl⟩
    obtain ⟨t, hissue, ht, hdec, hill⟩ := issueAll_truDigest s his
    exact ⟨_, t, his, hissue, ht.result, dynamicTruncation_lt ds, ht.tvalid, ht.tload, ht.alg, ht.bytes,
      hdec, hill⟩
  · exact Option.eq_none_iff_forall_ne_some.2 fun is his => hlen (truDigest_eq_some.1 his).1

/-! ## One response per command (R58) -/

/-- The command `i` led from `s` to `t` with a response that R58 lists for it. -/
abbrev ListedResponse (i : Instr) (s t : State) : Prop :=
  ∃ r : Response, t.port = .busy r ∧ r.code ≠ .illegal ∧
    (r.code = .decErr → (∃ c, i = .decChar c) ∨ i = .decEnd) ∧
    (r.code = .stateErr → (∃ c, i = .decChar c) ∨ i = .decEnd ∨ (∃ b, i = .truByte b) ∨ i = .truExec) ∧
    (r.code = .ok → OkData i s t r.data) ∧
    (r.code = .decErr → r.data = t.dec.errchar.setWidth 32) ∧
    (r.code = .stateErr → r.data = 0)

theorem listedResponse_ok {i : Instr} {s t : State} {d : Data}
    (hp : t.port = .busy { code := .ok, data := d }) (hd : OkData i s t d) : ListedResponse i s t :=
  ⟨_, hp, by simp, by simp, by simp, fun _ => hd, by simp, by simp⟩

theorem listedResponse_decErr {i : Instr} {s t : State}
    (hp : t.port = .busy { code := .decErr, data := t.dec.errchar.setWidth 32 })
    (hi : (∃ c, i = .decChar c) ∨ i = .decEnd) : ListedResponse i s t :=
  ⟨_, hp, by simp, fun _ => hi, by simp, by simp, fun _ => rfl, by simp⟩

theorem listedResponse_stateErr {i : Instr} {s t : State}
    (hp : t.port = .busy { code := .stateErr, data := 0 })
    (hi : (∃ c, i = .decChar c) ∨ i = .decEnd ∨ (∃ b, i = .truByte b) ∨ i = .truExec) :
    ListedResponse i s t :=
  ⟨_, hp, by simp, by simp, fun _ => hi, by simp, by simp, fun _ => rfl⟩

/-- An alphabet character answers no byte, or one byte marked by bit 8 (R63). -/
theorem listedResponse_feedGroup (c : Byte) (v : Quintet) (s : State) :
    ListedResponse (.decChar c) s (feedGroup v s) := by
  rcases Nat.lt_or_ge s.dec.nbits.toNat 3 with h3 | h3
  · rw [feedGroup_keep h3]; exact listedResponse_ok rfl (.inl rfl)
  · rw [feedGroup_emit h3]; exact listedResponse_ok rfl (.inr ⟨_, emitWord_toNat _⟩)

/-- TRU in a load, whatever its history, has been given the first `DCNT` bytes of `DBUF`. -/
theorem digestLoading_dbuf_take {t : TruRegs} (hl : t.tload = true) (hle : t.dcnt.toNat ≤ 20) :
    DigestLoading t.alg (t.dbuf.toList.take t.dcnt.toNat) t where
  tload := hl
  alg := rfl
  dcnt := by simp [hle]
  bytes := by simp [hle]

/-- `TRU_EXEC` on a complete digest answers its dynamic truncation (R72 to R75). -/
theorem okData_truExec {s t : State} (hl : s.tru.tload = true)
    (hfull : s.tru.dcnt.toNat = Config.digestLen s.tru.alg) :
    OkData .truExec s t (truncValue s.tru (truncOffset s.tru)) := by
  have hle : s.tru.dcnt.toNat ≤ 20 := hfull ▸ digestLen_le _
  have hload := digestLoading_dbuf_take hl hle
  have hlen := hload.dcnt.symm.trans hfull
  rw [hfull] at hload hlen
  exact truncValue_of_loading hload hlen

theorem exec_listedResponse {i : Instr} {s t : State} (h : exec i s = .next t) :
    ListedResponse i s t := by
  cases i
  case decChar c =>
    obtain ⟨-, h'⟩ | ⟨-, h'⟩ | ⟨-, -, h'⟩ | ⟨v, -, -, h'⟩ := execDecChar_cases c s <;>
      obtain rfl := eq_of_next h h'
    · exact listedResponse_stateErr rfl (.inl ⟨c, rfl⟩)
    · exact listedResponse_decErr rfl (.inl ⟨c, rfl⟩)
    · exact listedResponse_decErr rfl (.inl ⟨c, rfl⟩)
    · exact listedResponse_feedGroup c v s
  case decEnd =>
    obtain ⟨-, h'⟩ | ⟨-, h'⟩ | ⟨-, h'⟩ := execDecEnd_cases s <;>
      obtain rfl := eq_of_next h h'
    · exact listedResponse_stateErr rfl (.inr (.inl rfl))
    · exact listedResponse_decErr rfl (.inr rfl)
    · exact listedResponse_ok rfl rfl
  case truByte b =>
    obtain ⟨-, h'⟩ | ⟨-, -, -, h'⟩ | ⟨-, -, _, h'⟩ := execTruByte_cases b s
    · obtain rfl := eq_of_next h h'
      exact listedResponse_stateErr rfl (.inr (.inr (.inl ⟨b, rfl⟩)))
    · nomatch h.symm.trans h'
    · obtain rfl := eq_of_next h h'; exact listedResponse_ok rfl rfl
  case truExec =>
    obtain ⟨-, h'⟩ | ⟨hl, hfull, h'⟩ := execTruExec_cases s <;>
      obtain rfl := eq_of_next h h'
    · exact listedResponse_stateErr rfl (.inr (.inr (.inr rfl)))
    · exact listedResponse_ok rfl (okData_truExec hl hfull)
  all_goals obtain rfl := Host.Outcome.next.inj h; exact listedResponse_ok rfl rfl

/-- Settles O37: a legal word answers as its command does, a reserved one `ILLEGAL` with its echo. -/
theorem oneResponsePerCommand : Obligations.OneResponsePerCommand := by
  unfold Obligations.OneResponsePerCommand
  refine ⟨fun i s t => exec_listedResponse, fun w s t h => ?_⟩
  obtain ⟨i, hdec, h'⟩ | ⟨x, hdec, h'⟩ := accept_cases w s
  · obtain ⟨r, hp, hwf, hcode⟩ := exec_response (h'.symm.trans h)
    have hlegal : ¬ ReservedWord w := by simp [reservedWord_iff, hdec]
    exact ⟨r, hp, hwf, iff_of_false hcode hlegal, fun hill => absurd hill hcode⟩
  · obtain rfl := eq_of_next h h'
    have hres : ReservedWord w := (reservedWord_iff w).2 ⟨x, hdec⟩
    exact ⟨_, rfl, responseWf_illegal w, iff_of_true rfl hres, fun _ => rfl⟩

end Sys2Proof.Machine
end

section
/-! SUPPORT. The commands of the decoder unit (R61 to R63, R65, R86): the alphabet by byte ranges, and what
each command does in each `DSTATE`. -/

namespace Sys2Proof.Machine

/-! ## The alphabet (R61, R67) -/

/-- The three byte ranges of the alphabet and the value of each byte in them. -/
theorem alpha_eq_some_iff {c : Byte} {v : Quintet} : alpha c = some v ↔
    (0x41 ≤ c.toNat ∧ c.toNat ≤ 0x5A ∧ v.toNat = c.toNat - 0x41) ∨
    (0x61 ≤ c.toNat ∧ c.toNat ≤ 0x7A ∧ v.toNat = c.toNat - 0x61) ∨
    (0x32 ≤ c.toNat ∧ c.toNat ≤ 0x37 ∧ v.toNat = c.toNat - 0x32 + 26) := by
  have hc := c.isLt
  have hv := v.isLt
  simp only [alpha, BitVec.le_def, BitVec.reduceToNat]
  split_ifs
  case neg => rw [false_iff]; omega
  all_goals
    rw [Option.some_inj, ← BitVec.toNat_inj]
    simp only [BitVec.toNat_setWidth, BitVec.toNat_add, BitVec.toNat_sub, BitVec.reduceToNat]
    omega

/-- Settles O13: the ranges are those of `alpha_eq_some_iff`, and the characters in the order of their
values are looked up one by one. -/
theorem alphabetTable : Obligations.AlphabetTable := by
  unfold Obligations.AlphabetTable
  exact ⟨fun c v => alpha_eq_some_iff, by decide, by decide⟩

/-- Both cases of a letter are in the alphabet, with one value. -/
theorem exists_alpha_of_upper {c : Byte} (h : 0x41 ≤ c) (h' : c ≤ 0x5A) :
    ∃ v, alpha c = some v ∧ alpha (c + 0x20) = some v := by
  simp only [BitVec.le_def, BitVec.reduceToNat] at h h'
  have hval : (BitVec.ofNat 5 (c.toNat - 0x41)).toNat = c.toNat - 0x41 := by
    rw [BitVec.toNat_ofNat]; omega
  have hlower : (c + 0x20).toNat = c.toNat + 0x20 := by
    simp only [BitVec.toNat_add, BitVec.reduceToNat]; omega
  exact ⟨BitVec.ofNat 5 (c.toNat - 0x41), alpha_eq_some_iff.2 (.inl (by omega)),
    alpha_eq_some_iff.2 (.inr (.inl (by omega)))⟩

/-! ## The commands in each `DSTATE` (R62, R63, R65) -/

section
variable {s : State}

theorem execDecChar_of_idle (c : Byte) (h : s.dec.dstate = .idle) :
    execDecChar c s = .next (respondStateErr s) := by simp only [execDecChar, h]

theorem execDecChar_of_error (c : Byte) (h : s.dec.dstate = .error) :
    execDecChar c s = .next (respondDecErr s.dec.errchar s) := by simp only [execDecChar, h]

theorem execDecChar_of_offender {c : Byte} (h : s.dec.dstate = .active) (hc : alpha c = none) :
    execDecChar c s = .next (failDecode c s) := by simp only [execDecChar, h, hc]

theorem execDecChar_of_group {c : Byte} {v : Quintet} (h : s.dec.dstate = .active)
    (hc : alpha c = some v) : execDecChar c s = .next (feedGroup v s) := by
  simp only [execDecChar, h, hc]

theorem execDecEnd_of_idle (h : s.dec.dstate = .idle) :
    execDecEnd s = .next (respondStateErr s) := by simp only [execDecEnd, h]

theorem execDecEnd_of_error (h : s.dec.dstate = .error) : execDecEnd s =
    .next (respondDecErr s.dec.errchar { s with dec := { s.dec with dstate := .idle } }) := by
  simp only [execDecEnd, h]

theorem execDecEnd_of_active (h : s.dec.dstate = .active) : execDecEnd s =
    .next (respond .ok s.dec.outcnt
      { s with dec := { s.dec with acc := 0, nbits := 0, dstate := .idle } }) := by
  simp only [execDecEnd, h]

end

/-- Settles O14: `DEC_START` reads no register it does not overwrite. -/
theorem decStartOpensTransaction : Obligations.DecStartOpensTransaction := by
  unfold Obligations.DecStartOpensTransaction
  exact fun s => ⟨_, rfl, rfl, rfl⟩

/-- Settles O16: one lemma for each `DSTATE`. -/
theorem decEndClosesTransaction : Obligations.DecEndClosesTransaction := by
  unfold Obligations.DecEndClosesTransaction
  exact fun s => ⟨execDecEnd_of_idle, execDecEnd_of_error, execDecEnd_of_active⟩

/-! ## The 5-to-8 step as arithmetic (R63) -/

theorem residue_eq_ofNat (t : BitVec 12) {r : Nat} (h : r ≤ 7) :
    residue t r = BitVec.ofNat 7 (t.toNat % 2 ^ r) := by
  rw [← residue_toNat t h, BitVec.ofNat_toNat, BitVec.setWidth_eq]

theorem setWidth_eq_ofNat (t : BitVec 12) : t.setWidth 7 = BitVec.ofNat 7 (t.toNat % 2 ^ 7) :=
  BitVec.eq_of_toNat_eq (by simp)

theorem outcnt_succ_eq_ofNat (n : BitVec 32) :
    n + 1 = BitVec.ofNat 32 ((n.toNat + 1) % 2 ^ 32) :=
  BitVec.eq_of_toNat_eq (by simp)

/-- Settles O15: the two branches of the 5-to-8 step are `feedGroup_emit` and `feedGroup_keep`, their
words written as numbers. -/
theorem decCharStep : Obligations.DecCharStep := by
  unfold Obligations.DecCharStep
  refine fun s c => ⟨execDecChar_of_idle c, execDecChar_of_error c, execDecChar_of_offender,
    fun v ha hc h3 => ?_, fun v ha hc h3 => ?_⟩
  · have hr : s.dec.nbits.toNat - 3 ≤ 7 := by omega
    have hn : s.dec.nbits.toNat + 5 - 8 = s.dec.nbits.toNat - 3 := by omega
    refine (execDecChar_of_group ha hc).trans ?_
    rw [feedGroup_emit h3, residue_eq_ofNat _ hr, outcnt_succ_eq_ofNat, emitWord_eq_ofNat,
      oldestByte_toNat, hn, shiftIn_toNat]
    rfl
  · refine (execDecChar_of_group ha hc).trans ?_
    rw [feedGroup_keep h3, setWidth_eq_ofNat, shiftIn_toNat]
    rfl

/-! ## `DEC_ERR` (R86) -/

/-- An alphabet character in `ACTIVE` answers `OK` (R63). -/
theorem feedGroup_port (v : Quintet) (s : State) :
    ∃ d, (feedGroup v s).port = .busy { code := .ok, data := d } := by
  rcases Nat.lt_or_ge s.dec.nbits.toNat 3 with h3 | h3
  · rw [feedGroup_keep h3]; exact ⟨_, rfl⟩
  · rw [feedGroup_emit h3]; exact ⟨_, rfl⟩

/-- The command `i` led from `s` to `t` with the byte that failed the transaction as its response. -/
abbrev DecErrResponse (i : Instr) (s t : State) : Prop :=
  (s.dec.dstate = .error → t.dec.errchar = s.dec.errchar) ∧
  (∀ c, i = .decChar c → s.dec.dstate = .active → t.dec.errchar = c) ∧
  t.port = .busy { code := .decErr, data := t.dec.errchar.setWidth 32 }

/-- In `ERROR` the latched byte is the response, and stays latched. -/
theorem decErrResponse_of_error {i : Instr} {s : State} (d : DecRegs) (he : s.dec.dstate = .error)
    (hd : d.errchar = s.dec.errchar) :
    DecErrResponse i s (respondDecErr s.dec.errchar { s with dec := d }) :=
  ⟨fun _ => hd, fun _ _ ha => (nomatch he.symm.trans ha), by rw [← hd]; rfl⟩

theorem exec_of_decErrCond {i : Instr} {s : State} (h : DecErrCond i s) :
    ∃ t : State, exec i s = .next t ∧ DecErrResponse i s t := by
  cases i
  case decChar c =>
    obtain he | ⟨ha, hc⟩ := h
    · exact ⟨_, execDecChar_of_error c he, decErrResponse_of_error s.dec he rfl⟩
    · exact ⟨_, execDecChar_of_offender ha hc, fun he => (nomatch ha.symm.trans he),
        fun _ hi _ => Instr.decChar.inj hi, rfl⟩
  case decEnd => exact ⟨_, execDecEnd_of_error h, decErrResponse_of_error _ h rfl⟩
  all_goals exact h.elim

theorem decErrCond_of_exec {i : Instr} {s t : State} {d : Data} (h : exec i s = .next t)
    (hp : t.port = .busy { code := .decErr, data := d }) : DecErrCond i s := by
  obtain ⟨r, hr, -, hdec, -⟩ := exec_listedResponse h
  obtain rfl := Port.busy.inj (hp.symm.trans hr)
  obtain ⟨c, rfl⟩ | rfl := hdec rfl
  · obtain ⟨-, h'⟩ | ⟨he, -⟩ | ⟨ha, hc, -⟩ | ⟨v, -, -, h'⟩ := execDecChar_cases c s
    · obtain rfl := eq_of_next h h'; nomatch hp
    · exact .inl he
    · exact .inr ⟨ha, hc⟩
    · obtain rfl := eq_of_next h h'
      obtain ⟨d', hok⟩ := feedGroup_port v s
      nomatch hok.symm.trans hp
  · obtain ⟨-, h'⟩ | ⟨he, -⟩ | ⟨-, h'⟩ := execDecEnd_cases s
    · obtain rfl := eq_of_next h h'; nomatch hp
    · exact he
    · obtain rfl := eq_of_next h h'; nomatch hp

/-- Settles O36: R58 leaves `DEC_CHAR` and `DEC_END`, and each answers `DEC_ERR` in those cases only. -/
theorem decErrExactly : Obligations.DecErrExactly := by
  unfold Obligations.DecErrExactly
  exact fun i s => ⟨exec_of_decErrCond, fun t d => decErrCond_of_exec⟩

end Sys2Proof.Machine
end

section
/-! SUPPORT. What a decode transaction shows of its string (R64, R66 to R69): the bytes as they complete,
the first offender, not the case of letters, and not the trailing bits. -/

namespace Sys2Proof.Machine

/-! ## The responses of a transaction (R64, R66) -/

theorem length_streamBytes (vs : List Quintet) : (streamBytes vs).length = 5 * vs.length / 8 := by
  rw [streamBytes, List.length_map, List.length_range]

theorem length_emissionResponses (vs : List Quintet) :
    (emissionResponses vs).length = vs.length := by
  rw [emissionResponses, List.length_map, List.length_range]

/-- The response to character `k` carries a byte exactly when one more byte is complete (R64). -/
theorem isSome_emitted_emissionResponse (vs : List Quintet) (k : Nat) :
    (emitted (emissionResponse vs k)).isSome = true ↔ 5 * k / 8 < 5 * (k + 1) / 8 := by
  rcases Nat.lt_or_ge (5 * k % 8) 3 with h | h
  · rw [emissionResponse_eq_keep vs h, emitted_zero]
    exact iff_of_false (by simp) (by omega)
  · rw [emissionResponse_eq_emit vs h, emitted_emitWord]
    exact iff_of_true rfl (by omega)

theorem eq_emissionResponse_of_getElem? {vs : List Quintet} {k : Nat} {r : Response}
    (h : (emissionResponses vs)[k]? = some r) : r = emissionResponse vs k := by
  obtain ⟨hk, rfl⟩ := List.getElem?_eq_some_iff.1 h
  simp only [emissionResponses, List.getElem_map, List.getElem_range]

/-- Settles O17: DEC is then `streamRegs vs`, and the responses are those of the stream. -/
theorem emissionLaw : Obligations.EmissionLaw := by
  unfold Obligations.EmissionLaw
  intro s cs vs h
  obtain ⟨p, hp⟩ := issueAll_decChars_of_alphabet
    (s := { s with dec := streamRegs [], port := .busy { code := .ok, data := 0 } }) rfl h
  have hbytes := filterMap_emitted_emissionResponses vs
  refine ⟨_, emissionResponses vs, by rw [issueAll_cons (issue_decStart s), hp]; rfl, rfl,
    streamRegs_nbits_toNat vs, streamRegs_acc_toNat vs, length_emissionResponses vs, hbytes,
    by rw [hbytes, length_streamBytes], fun k r hr => ?_⟩
  rw [eq_emissionResponse_of_getElem? hr, isSome_emitted_emissionResponse]

/-- Settles O18: both transactions are known with their last states. -/
theorem transactionLaw : Obligations.TransactionLaw := by
  unfold Obligations.TransactionLaw
  exact ⟨fun s cs vs h => ⟨_, issueAll_decStr_of_alphabet s h, rfl, rfl, rfl, rfl, rfl⟩,
    fun s cs vs c ds h hc =>
      ⟨_, issueAll_decStr_of_offender s h hc ds, rfl, rfl, rfl, rfl, rfl⟩⟩

/-! ## The first offender (R68) -/

/-- Once the latched byte is the response at the port, further bytes change nothing at all. -/
theorem issueAll_decChars_of_latched {s : State} (hs : s.dec.dstate = .error)
    (hp : s.port = .busy { code := .decErr, data := s.dec.errchar.setWidth 32 }) (cs : List Byte) :
    issueAll (cs.map .decChar) s =
      some (s, List.replicate cs.length { code := .decErr, data := s.dec.errchar.setWidth 32 }) := by
  have hstay : respondDecErr s.dec.errchar s = s := by
    rw [respondDecErr, respond, ← hp]
  induction cs with
  | nil => rfl
  | cons c cs ih =>
    rw [List.map_cons, issueAll_cons (issue_decChar_of_error c hs), hstay, ih]
    rfl

/-- Settles O20: after the first byte of either list the response latched is at the port. -/
theorem firstErrorWins : Obligations.FirstErrorWins := by
  unfold Obligations.FirstErrorWins
  refine ⟨fun s c cs ha hc => ⟨_, ?_, rfl⟩, fun s c cs he => ?_⟩
  · have hrest := issueAll_decChars_of_latched (s := failDecode c s) rfl rfl cs
    rw [List.map_cons, issueAll_cons (issue_decChar_of_offender ha hc), hrest]
    rfl
  · have hrest := issueAll_decChars_of_latched (s := respondDecErr s.dec.errchar s) he rfl cs
    rw [List.map_cons, issueAll_cons (issue_decChar_of_error c he), hrest]
    rfl

/-! ## The case of letters (R67) -/

/-- Of a byte in the alphabet `DEC_CHAR` uses the value alone. -/
theorem issue_decChar_congr {c d : Byte} {v : Quintet} (hc : alpha c = some v)
    (hd : alpha d = some v) (s : State) : issue (.decChar c) s = issue (.decChar d) s := by
  simp only [issue, exec, execDecChar, hc, hd]

theorem issue_decChar_of_sameButCase {c d : Byte} (h : SameButCase c d) (s : State) :
    issue (.decChar c) s = issue (.decChar d) s := by
  obtain rfl | ⟨hA, hZ, rfl⟩ | ⟨hA, hZ, rfl⟩ := h
  · rfl
  · obtain ⟨v, hupper, hlower⟩ := exists_alpha_of_upper hA hZ
    exact issue_decChar_congr hupper hlower s
  · obtain ⟨v, hupper, hlower⟩ := exists_alpha_of_upper hA hZ
    exact issue_decChar_congr hlower hupper s

/-- Strings whose characters do the same one by one do the same, before whatever follows. -/
theorem issueAll_decChars_congr {cs ds : List Byte} (h : List.Forall₂ SameButCase cs ds)
    (is : List Instr) (s : State) :
    issueAll (cs.map .decChar ++ is) s = issueAll (ds.map .decChar ++ is) s := by
  induction h generalizing s with
  | nil => rfl
  | cons hcd _ ih => simp only [List.map_cons, List.cons_append, issueAll,
      issue_decChar_of_sameButCase hcd, ih]

/-- Settles O19: a byte outside the alphabet is no letter, so that bytes which differ have one value. -/
theorem caseDoesNotMatter : Obligations.CaseDoesNotMatter := by
  unfold Obligations.CaseDoesNotMatter
  refine ⟨fun c hA hZ => ?_, fun s cs ds h => ?_⟩
  · obtain ⟨v, hupper, hlower⟩ := exists_alpha_of_upper hA hZ
    rw [hupper, hlower]
  · obtain ⟨rs, hrs⟩ := exists_decStr_responses cs
    obtain ⟨t, ht⟩ := hrs s
    refine ⟨t, rs, ht, ?_⟩
    rw [decStr, issueAll_cons (issue_decStart s)] at ht ⊢
    rw [← issueAll_decChars_congr h, ht]

/-! ## The length and the trailing bits (R69) -/

section
variable {cs : List Byte} {vs : List Quintet} (h : cs.map alpha = vs.map some)
include h

theorem length_of_alphabet : vs.length = cs.length := by
  simpa using (congrArg List.length h).symm

theorem hostDecodeStr_of_alphabet (s : State) : hostDecodeStr cs s = some (.ok (streamBytes vs)) := by
  rw [hostDecodeIsBase32 s cs, base32_of_alphabet h]

end

theorem exists_groups_of_alphabet {cs : List Byte} (h : ∀ c ∈ cs, (alpha c).isSome = true) :
    ∃ vs : List Quintet, cs.map alpha = vs.map some := by
  obtain hvs | ⟨pre, vs, c, post, rfl, -, hc⟩ := alphabet_or_offender cs
  · exact hvs
  · have hsome := h c (by simp)
    simp [hc] at hsome

/-- The whole bytes of a stream stand above its last `5n mod 8` bits. -/
theorem streamBytes_congr {vs ws : List Quintet} (hlen : ws.length = vs.length)
    (h : streamValue ws / 2 ^ (5 * vs.length % 8) = streamValue vs / 2 ^ (5 * vs.length % 8)) :
    streamBytes ws = streamBytes vs := by
  rw [streamBytes, streamBytes, hlen]
  refine List.map_congr_left fun k hk => ?_
  have hk := List.mem_range.1 hk
  have hexp : 5 * vs.length - 8 * (k + 1) =
      5 * vs.length % 8 + (5 * vs.length - 8 * (k + 1) - 5 * vs.length % 8) := by omega
  rw [streamByte, streamByte, hlen, hexp, Nat.pow_add, ← Nat.div_div_eq_div_mul, h,
    Nat.div_div_eq_div_mul]

/-- Settles O22: the host decodes a string of alphabet characters to the whole bytes of its stream. -/
theorem noLengthOrTrailingCheck : Obligations.NoLengthOrTrailingCheck := by
  unfold Obligations.NoLengthOrTrailingCheck
  refine ⟨fun s cs hcs => ?_, fun s cs ds vs ws hvs hws hlen hval => ?_⟩
  · obtain ⟨vs, hvs⟩ := exists_groups_of_alphabet hcs
    exact ⟨_, hostDecodeStr_of_alphabet hvs s, by rw [length_streamBytes, length_of_alphabet hvs]⟩
  · rw [← length_of_alphabet hws, ← length_of_alphabet hvs] at hlen
    rw [← length_of_alphabet hvs] at hval
    rw [hostDecodeStr_of_alphabet hws, hostDecodeStr_of_alphabet hvs, streamBytes_congr hlen hval]

end Sys2Proof.Machine
end

section
/-! SUPPORT. The commands of the truncation unit (R70 to R76): the store of a digest byte, and the value,
the offset and the wrap flag as numbers computed from the bytes of `DBUF`. -/

namespace Sys2Proof.Machine

/-! ## `TRU_START` and `TRU_BYTE` (R70, R71) -/

/-- Settles O23: `TRU_START` reads no register but `DBUF`, which it keeps. -/
theorem truStartBeginsLoad : Obligations.TruStartBeginsLoad := by
  unfold Obligations.TruStartBeginsLoad
  exact fun _ _ => rfl

/-- Settles O24: a refusal is `execTruByte_of_refused`, a store `execTruByte_of_loading`, the new count
being below `2^5`. -/
theorem truByteStoresNext : Obligations.TruByteStoresNext := by
  unfold Obligations.TruByteStoresNext
  refine fun s b => ⟨execTruByte_of_refused, fun hl hne hlt => ?_⟩
  have hcount := dcnt_succ_toNat hlt
  refine ⟨_, execTruByte_of_loading hl hne hlt, fun i => ?_, hcount, ?_, rfl⟩
  · simp only [respond, Fin.getElem_fin, Vector.getElem_set, eq_comm]
  · rw [← hcount, BitVec.ofNat_toNat]; rfl

/-! ## The value and the offset as numbers (R73 to R75) -/

theorem digestLen_eq_ite (a : Alg) : Config.digestLen a = if a = .sha1 then 20 else 16 := by
  cases a <;> rfl

/-- A window index reads the byte of `DBUF` at that index modulo the digest length (R74). -/
theorem digestByte_digestIndex (t : TruRegs) (a : Alg) (k : Nat) :
    t.digestByte (digestIndex a k) = t.dbuf.toList.getD (k % Config.digestLen a) 0 := by
  have hk : k % Config.digestLen a < 20 := (digestIndex a k).isLt
  simp [TruRegs.digestByte, hk]

theorem truncOffset_toNat_eq_getD (t : TruRegs) : (truncOffset t).toNat =
    (t.dbuf.toList.getD (Config.digestLen t.alg - 1) 0).toNat % 16 := by
  have hlast : Config.digestLen t.alg - 1 < Config.digestLen t.alg := by
    have := digestLen_pos t.alg; omega
  rw [truncOffset_toNat, digestByte_digestIndex, Nat.mod_eq_of_lt hlast]

/-- Dropping the top bit leaves 31 bits (R75). -/
theorem truncValue_toNat_lt (t : TruRegs) (off : BitVec 4) : (truncValue t off).toNat < 2 ^ 31 :=
  BitVec.toNat_lt_of_msb_false (truncValue_getLsbD_31 t off)

/-- Settles O26: the value and the offset of a complete digest, as numbers, are those of the window. -/
theorem truExecTruncates : Obligations.TruExecTruncates := by
  unfold Obligations.TruExecTruncates
  refine fun s => ⟨execTruExec_of_refused, fun hl hfull => ?_⟩
  rw [← digestLen_eq_ite]
  intro n p off val
  have hoff : (truncOffset s.tru).toNat = off := truncOffset_toNat_eq_getD s.tru
  have hval : (truncValue s.tru (truncOffset s.tru)).toNat = val := by
    simp only [truncValue_toNat, windowByte, digestByte_digestIndex, hoff]; rfl
  rw [← hval, ← hoff, BitVec.ofNat_toNat, BitVec.ofNat_toNat, BitVec.setWidth_eq, BitVec.setWidth_eq]
  exact ⟨Nat.le_of_lt_succ (truncValue_toNat_lt _ _), execTruExec_of_complete hl hfull⟩

/-! ## The wrap flag (R76) -/

/-- A window passes the end of the digest at some byte if it does at its last. -/
theorem wraps_iff_exists_index {a : Alg} {off : BitVec 4} :
    wraps a off = true ↔ ∃ i < 4, Config.digestLen a ≤ off.toNat + i := by
  rw [wraps_iff_window_passes]
  constructor
  · exact fun h => ⟨3, by decide, h⟩
  · rintro ⟨i, hi, h⟩; omega

/-- A wrapped window holds the last byte of the MD5 digest. -/
theorem exists_index_last_of_wraps {a : Alg} {off : BitVec 4} (h : wraps a off = true) :
    ∃ i < 4, (digestIndex a (off.toNat + i)).val = 15 := by
  obtain ⟨rfl, h13⟩ := wraps_eq_true.1 h
  have hlt := off.isLt
  refine ⟨15 - off.toNat, by omega, ?_⟩
  rw [digestIndex_val, Nat.add_sub_of_le (by omega)]
  rfl

/-- Settles O27: the flag is `wraps`, which holds of MD5 at the last three offsets alone. -/
theorem windowWrapsOnlyForMd5 : Obligations.WindowWrapsOnlyForMd5 := by
  unfold Obligations.WindowWrapsOnlyForMd5
  refine ⟨fun s hl hfull => ⟨_, execTruExec_of_complete hl hfull, wraps_iff_exists_index, fun ha => ?_,
    fun ha => ?_, exists_index_last_of_wraps⟩, by decide, by decide, by decide⟩
  · exact Bool.eq_false_iff.2 fun h => by simpa [ha] using wraps_eq_true.1 h
  · exact wraps_eq_true.trans (and_iff_right ha)

end Sys2Proof.Machine
end

section
/-! SUPPORT. The command that only responds (R81). -/

namespace Sys2Proof.Machine

/-- `NOP` is the response `OK, 0` from the state it finds (R81). -/
theorem exec_nop (s : State) : exec .nop s = .next (respond .ok 0 s) := rfl

/-- Settles O30: a response replaces the port alone. -/
theorem nopOnlyResponds : Obligations.NopOnlyResponds := by
  unfold Obligations.NopOnlyResponds
  intro s
  rw [exec_nop, respond]

end Sys2Proof.Machine
end

section
/-! SUPPORT. The errors `STATE_ERR` and `ILLEGAL` (R84, R85), and that the block keeps its registers while
idle and shows them to the host (R94). -/

namespace Sys2Proof.Machine

/-! ## The coded fields of the words (R22, R25, R30) -/

theorem dstateCode_injective : Function.Injective dstateCode := by
  intro a b h
  cases a <;> cases b <;> simp [dstateCode] at h ⊢

/-- `ALG` is one bit (R25). -/
theorem alg_eq_of_md5_iff {a b : Alg} (h : a = .md5 ↔ b = .md5) : a = b := by
  cases a <;> cases b <;> simp at h ⊢

/-- The low bits of the ACC word are `ACC` (R30). -/
theorem acc_eq_extract_accWord (d : DecRegs) : (accWord d).extractLsb' 0 7 = d.acc :=
  BitVec.extractLsb'_append_eq_right

/-! ## Registers from the words read (R94) -/

/-- The registers of DEC are those in the STATUS word, `OUTCNT` and `ACC` (R22, R29). -/
theorem dec_eq_of_words {s u : State} (hstatus : statusWord u = statusWord s)
    (houtcnt : u.dec.outcnt = s.dec.outcnt) (hacc : accWord u.dec = accWord s.dec) :
    u.dec = s.dec := by
  obtain ⟨hderr, -⟩ := statusWord_bits s
  obtain ⟨hderr', -⟩ := statusWord_bits u
  obtain ⟨hdstate, hnbits, herrchar, -⟩ := statusWord_fields s
  obtain ⟨hdstate', hnbits', herrchar', -⟩ := statusWord_fields u
  rw [hstatus] at hderr' hdstate' hnbits' herrchar'
  have hacc' : u.dec.acc = s.dec.acc := by
    rw [← acc_eq_extract_accWord, hacc, acc_eq_extract_accWord]
  exact (DecRegs.mk.injEq ..).mpr ⟨dstateCode_injective (hdstate'.symm.trans hdstate), hacc',
    hnbits'.symm.trans hnbits, houtcnt, herrchar'.symm.trans herrchar, hderr'.symm.trans hderr⟩

/-- The registers of TRU but for `DBUF` are those in the STATUS word and `RESULT` (R25, R29). -/
theorem tru_eq_of_words {s u : State} (hstatus : statusWord u = statusWord s)
    (hresult : u.tru.result = s.tru.result) : u.tru = { s.tru with dbuf := u.tru.dbuf } := by
  obtain ⟨-, -, -, htload, halg, hwrap, htvalid, -⟩ := statusWord_bits s
  obtain ⟨-, -, -, htload', halg', hwrap', htvalid', -⟩ := statusWord_bits u
  obtain ⟨-, -, -, hdcnt, hoffset, -⟩ := statusWord_fields s
  obtain ⟨-, -, -, hdcnt', hoffset', -⟩ := statusWord_fields u
  rw [hstatus] at htload' halg' hwrap' htvalid' hdcnt' hoffset'
  have halgs : u.tru.alg = s.tru.alg :=
    alg_eq_of_md5_iff (decide_eq_decide.1 (halg'.symm.trans halg))
  exact (TruRegs.mk.injEq ..).mpr ⟨htload'.symm.trans htload, halgs, hdcnt'.symm.trans hdcnt, rfl,
    hresult, hoffset'.symm.trans hoffset, hwrap'.symm.trans hwrap, htvalid'.symm.trans htvalid⟩

theorem ill_eq_of_statusWord {s u : State} (hstatus : statusWord u = statusWord s) :
    u.ill = s.ill := by
  obtain ⟨-, -, -, -, -, -, -, hill⟩ := statusWord_bits s
  obtain ⟨-, -, -, -, -, -, -, hill'⟩ := statusWord_bits u
  rw [← hill, ← hill', hstatus]

/-! ## The reads as issued by the host (R77 to R80) -/

theorem issue_rdStatus (s : State) : issue .rdStatus s =
    some (respond .ok (statusWord s) s, { code := .ok, data := statusWord s }) := rfl

theorem issue_rdResult (s : State) : issue .rdResult s =
    some (respond .ok s.tru.result s, { code := .ok, data := s.tru.result }) := rfl

theorem issue_rdOutcnt (s : State) : issue .rdOutcnt s =
    some (respond .ok s.dec.outcnt s, { code := .ok, data := s.dec.outcnt }) := rfl

theorem issue_rdAcc (s : State) : issue .rdAcc s =
    some (respond .ok (accWord s.dec) s, { code := .ok, data := accWord s.dec }) := rfl

/-- Settles O34: equal responses are equal words, and the four words hold every register but `DBUF`. -/
theorem readsShowEveryRegister : Obligations.ReadsShowEveryRegister := by
  unfold Obligations.ReadsShowEveryRegister
  intro s u h
  obtain ⟨hstatus, hresult, houtcnt, hacc⟩ : statusWord s = statusWord u ∧
      s.tru.result = u.tru.result ∧ s.dec.outcnt = u.dec.outcnt ∧ accWord s.dec = accWord u.dec := by
    simpa [issue_rdStatus, issue_rdResult, issue_rdOutcnt, issue_rdAcc] using h
  exact ⟨dec_eq_of_words hstatus.symm houtcnt.symm hacc.symm, ill_eq_of_statusWord hstatus.symm,
    tru_eq_of_words hstatus.symm hresult.symm⟩

/-! ## `STATE_ERR` (R85) -/

theorem exec_of_stateErrCond {i : Instr} {s : State} (h : StateErrCond i s) :
    exec i s = .next (respondStateErr s) := by
  cases i
  case decChar c => exact execDecChar_of_idle c h
  case decEnd => exact execDecEnd_of_idle h
  case truByte b => exact execTruByte_of_refused h
  case truExec => exact execTruExec_of_refused h
  all_goals exact h.elim

/-- Only the four commands of R85 answer `STATE_ERR`, and every other case of each answers another code. -/
theorem stateErrCond_of_exec {i : Instr} {s t : State} {d : Data} (h : exec i s = .next t)
    (hp : t.port = .busy { code := .stateErr, data := d }) : StateErrCond i s := by
  obtain ⟨r, hr, -, -, hstate, -⟩ := exec_listedResponse h
  obtain rfl := Port.busy.inj (hp.symm.trans hr)
  obtain ⟨c, rfl⟩ | rfl | ⟨b, rfl⟩ | rfl := hstate rfl
  · obtain ⟨hidle, -⟩ | ⟨-, h'⟩ | ⟨-, -, h'⟩ | ⟨v, -, -, h'⟩ := execDecChar_cases c s
    · exact hidle
    · obtain rfl := eq_of_next h h'; nomatch hp
    · obtain rfl := eq_of_next h h'; nomatch hp
    · obtain rfl := eq_of_next h h'
      obtain ⟨d', hok⟩ := feedGroup_port v s
      nomatch hok.symm.trans hp
  · obtain ⟨hidle, -⟩ | ⟨-, h'⟩ | ⟨-, h'⟩ := execDecEnd_cases s
    · exact hidle
    · obtain rfl := eq_of_next h h'; nomatch hp
    · obtain rfl := eq_of_next h h'; nomatch hp
  · obtain ⟨href, -⟩ | ⟨-, -, -, h'⟩ | ⟨-, -, _, h'⟩ := execTruByte_cases b s
    · exact href
    · nomatch h.symm.trans h'
    · obtain rfl := eq_of_next h h'; nomatch hp
  · obtain ⟨href, -⟩ | ⟨-, -, h'⟩ := execTruExec_cases s
    · exact href
    · obtain rfl := eq_of_next h h'; nomatch hp

/-- Settles O35: each condition is a case of its command, and the other cases answer another code. -/
theorem stateErrExactly : Obligations.StateErrExactly := by
  unfold Obligations.StateErrExactly
  exact fun i s => ⟨exec_of_stateErrCond, fun t d => stateErrCond_of_exec⟩

/-! ## A refused word, and an edge without a word (R84, R94) -/

/-- Settles O11: the word is accepted, and a word the decoder refuses does what `illegal` does. -/
theorem reservedWordStep : Obligations.ReservedWordStep := by
  unfold Obligations.ReservedWordStep
  intro s e es x he hr hv hready hdec
  have hres : ReservedWord e.cmd := (reservedWord_iff _).2 ⟨x, hdec⟩
  rw [step_eq_accept he hr hv (cmdReady_eq_true.1 hready), accept_of_reserved hres, illegal, respond]

theorem handshake_ready_stays {e : Edge} {s : State} (hp : s.port = .ready)
    (hv : e.cmdValid = false) : handshake e s = .next s := by
  simp [handshake, hp, hv]

theorem step_of_no_edges {s : State} (he : s.edges = []) : step s = .next s := by
  simp only [step, he]

/-- Settles O49: the handshake does not move in `ready` without an offer. -/
theorem idleBlockKeepsState : Obligations.IdleBlockKeepsState := by
  unfold Obligations.IdleBlockKeepsState
  refine fun s => ⟨fun e es he hr hv hready => ?_, step_of_no_edges⟩
  rw [step_eq_handshake he hr]
  exact handshake_ready_stays (cmdReady_eq_true.1 hready) hv

end Sys2Proof.Machine
end

section
/-! SUPPORT. Reset and the phases of the port (R95, R96, R98): what an edge that accepts no word does to the
port, and how a response waits to be taken. -/

namespace Sys2Proof.Machine

/-! ## One edge -/

/-- At an edge with `rst = 1` the step is reset with that edge used up (R95). -/
theorem step_eq_reset {s : State} {e : Edge} {es : List Edge} (he : s.edges = e :: es)
    (hr : e.rst = true) : step s = .next { State.reset with port := .inReset, edges := es } := by
  simp [step, he, clockEdge, hr, applyReset]

/-- The phase after an edge with `rst = 0` at which no word is accepted, from the pin `rsp_ready` and the
block's choice `done` (R98). -/
def nextPhase (rspReady done : Bool) : Port → Port
  | .inReset => .ready
  | .ready => .ready
  | .busy r => if done then .responding r else .busy r
  | .responding r => if rspReady then (if done then .ready else .recovering) else .responding r
  | .recovering => if done then .ready else .recovering

/-- Where no word is accepted, the handshake moves the port to its next phase and nothing else. -/
theorem handshake_of_no_accept {e : Edge} {s : State} (h : s.port = .ready → e.cmdValid = false) :
    handshake e s = .next { s with port := nextPhase e.rspReady e.done s.port } := by
  cases hp : s.port
  case ready => rw [handshake_ready_stays hp (h hp), nextPhase, ← hp]
  case inReset => simp only [handshake, hp, nextPhase]
  case busy r => exact handshake_of_busy hp
  case responding r => exact handshake_of_responding hp
  case recovering => exact handshake_of_recovering hp

theorem step_of_no_accept {s : State} {e : Edge} {es : List Edge} (he : s.edges = e :: es)
    (hr : e.rst = false) (h : s.port = .ready → e.cmdValid = false) :
    step s = .next { s with port := nextPhase e.rspReady e.done s.port, edges := es } :=
  (step_eq_handshake he hr).trans (handshake_of_no_accept (s := { s with edges := es }) h)

/-- An accepted word leaves its response in progress (R98). -/
theorem accept_port {w : Cmd} {s t : State} (h : accept w s = .next t) : ∃ r, t.port = .busy r := by
  obtain ⟨r, hp, -⟩ := oneResponsePerCommand.2 w s t h
  exact ⟨r, hp⟩

/-- Settles O3: the two edges one after the other. -/
theorem resetEdgeThenReady : Obligations.ResetEdgeThenReady := by
  unfold Obligations.ResetEdgeThenReady
  intro s e f es he hre hrf
  exact ⟨_, _, step_eq_reset he hre, step_of_no_accept rfl hrf nofun, rfl, rfl, rfl, rfl, rfl, rfl⟩

/-- Settles O50: the next phase does not depend on the offer, and neither does reset. -/
theorem notReadyAcceptsNothing : Obligations.NotReadyAcceptsNothing := by
  unfold Obligations.NotReadyAcceptsNothing
  intro s e es v w hready he
  have hp : s.port ≠ .ready := fun hp => by simp [cmdReady_eq_true.2 hp] at hready
  refine ⟨?_, fun hr => ⟨_, step_of_no_accept he hr fun h => absurd h hp⟩⟩
  rcases Bool.eq_false_or_eq_true e.rst with hr | hr
  · exact (step_eq_reset he hr).trans
      (step_eq_reset (e := { e with cmdValid := v, cmd := w }) rfl hr).symm
  · exact (step_of_no_accept he hr fun h => absurd h hp).trans (step_of_no_accept
      (s := { s with edges := { e with cmdValid := v, cmd := w } :: es }) rfl hr
      fun h => absurd h hp).symm

/-! ## The phase before an edge, from the phase after it (R98) -/

/-- Everything the next phase can be, where it is another one: a command's own phases in order, and those
that lead back to `cmd_ready`. -/
theorem nextPhase_cases (rspReady done : Bool) (p : Port) :
    nextPhase rspReady done p = p ∨
    (∃ r, p = .busy r ∧ nextPhase rspReady done p = .responding r) ∨
    (∃ r, p = .responding r ∧ rspReady = true ∧
      (nextPhase rspReady done p = .recovering ∨ nextPhase rspReady done p = .ready)) ∨
    ((p = .inReset ∨ p = .recovering) ∧ nextPhase rspReady done p = .ready) := by
  cases p
  case inReset => exact .inr (.inr (.inr ⟨.inl rfl, rfl⟩))
  case ready => exact .inl rfl
  case busy r =>
    cases done
    case false => exact .inl rfl
    case true => exact .inr (.inl ⟨r, rfl, rfl⟩)
  case responding r =>
    cases rspReady
    case false => exact .inl rfl
    case true => exact .inr (.inr (.inl ⟨r, rfl, rfl, by cases done <;> simp [nextPhase]⟩))
  case recovering =>
    cases done
    case false => exact .inl rfl
    case true => exact .inr (.inr (.inr ⟨.inr rfl, rfl⟩))

section
variable {s t : State} (h : step s = .next t)
include h

/-- Everything a step that answers can do to the port: nothing, reset, the acceptance of a word, a response
becoming valid, a response taken, and the two ways back to `cmd_ready` without a response. -/
theorem step_port_cases :
    t.port = s.port ∨ t.port = .inReset ∨
    ((∃ r, t.port = .busy r) ∧ ∃ e es, s.edges = e :: es ∧ e.rst = false ∧ s.cmdReady = true ∧
      e.cmdValid = true ∧ accept e.cmd { s with edges := es } = .next t) ∨
    (∃ r, s.port = .busy r ∧ t.port = .responding r) ∨
    ((∃ r e es, s.port = .responding r ∧ s.edges = e :: es ∧ e.rst = false ∧ e.rspReady = true) ∧
      (t.port = .recovering ∨ t.port = .ready)) ∨
    ((s.port = .inReset ∨ s.port = .recovering) ∧ t.port = .ready) := by
  obtain ⟨-, h'⟩ | ⟨e, es, he, hr, h'⟩ | ⟨e, es, he, hr, -⟩ := step_cases s
  · exact .inl (eq_of_next h h' ▸ rfl)
  · exact .inr (.inl (eq_of_next h h' ▸ rfl))
  by_cases hacc : s.port = .ready ∧ e.cmdValid = true
  · obtain ⟨hp, hv⟩ := hacc
    have ha := (step_eq_accept he hr hv hp).symm.trans h
    exact .inr (.inr (.inl ⟨accept_port ha, e, es, he, hr, cmdReady_eq_true.2 hp, hv, ha⟩))
  · have hno (hp : s.port = .ready) : e.cmdValid = false := by simpa [hp] using hacc
    obtain rfl := eq_of_next h (step_of_no_accept he hr hno)
    obtain hp | hvalid | ⟨r, hp, htaken, hback⟩ | hback := nextPhase_cases e.rspReady e.done s.port
    · exact .inl hp
    · exact .inr (.inr (.inr (.inl hvalid)))
    · exact .inr (.inr (.inr (.inr (.inl ⟨⟨r, e, es, hp, he, hr, htaken⟩, hback⟩))))
    · exact .inr (.inr (.inr (.inr (.inr hback))))

theorem busy_or_responding_of_step_responding {r : Response} (ht : t.port = .responding r) :
    s.port = .busy r ∨ s.port = .responding r := by
  obtain hp | hp | ⟨⟨_, hp⟩, -⟩ | ⟨q, hs, hp⟩ | ⟨-, hp | hp⟩ | ⟨-, hp⟩ := step_port_cases h
  · exact .inr (hp.symm.trans ht)
  · nomatch hp.symm.trans ht
  · nomatch hp.symm.trans ht
  · exact .inl (Port.responding.inj (hp.symm.trans ht) ▸ hs)
  all_goals nomatch hp.symm.trans ht

theorem busy_or_accepted_of_step_busy {r : Response} (ht : t.port = .busy r) :
    s.port = .busy r ∨ ∃ e es, s.edges = e :: es ∧ e.rst = false ∧ s.cmdReady = true ∧
      e.cmdValid = true ∧ accept e.cmd { s with edges := es } = .next t := by
  obtain hp | hp | ⟨-, hacc⟩ | ⟨_, -, hp⟩ | ⟨-, hp | hp⟩ | ⟨-, hp⟩ := step_port_cases h
  · exact .inl (hp.symm.trans ht)
  · nomatch hp.symm.trans ht
  · exact .inr hacc
  all_goals nomatch hp.symm.trans ht

theorem recovering_or_taken_of_step_recovering (ht : t.port = .recovering) :
    s.port = .recovering ∨
      ∃ r e es, s.port = .responding r ∧ s.edges = e :: es ∧ e.rst = false ∧ e.rspReady = true := by
  obtain hp | hp | ⟨⟨_, hp⟩, -⟩ | ⟨_, -, hp⟩ | ⟨htaken, -⟩ | ⟨-, hp⟩ := step_port_cases h
  · exact .inl (hp.symm.trans ht)
  · nomatch hp.symm.trans ht
  · nomatch hp.symm.trans ht
  · nomatch hp.symm.trans ht
  · exact .inr htaken
  · nomatch hp.symm.trans ht

theorem phase_before_step_ready (ht : t.cmdReady = true) :
    s.cmdReady = true ∨ s.port = .inReset ∨ s.port = .recovering ∨
      ∃ r e es, s.port = .responding r ∧ s.edges = e :: es ∧ e.rst = false ∧ e.rspReady = true := by
  rw [cmdReady_eq_true] at ht ⊢
  obtain hp | hp | ⟨⟨_, hp⟩, -⟩ | ⟨_, -, hp⟩ | ⟨htaken, -⟩ | ⟨hs | hs, -⟩ := step_port_cases h
  · exact .inl (hp.symm.trans ht)
  · nomatch hp.symm.trans ht
  · nomatch hp.symm.trans ht
  · nomatch hp.symm.trans ht
  · exact .inr (.inr (.inr htaken))
  · exact .inr (.inl hs)
  · exact .inr (.inr (.inl hs))

end

/-- Settles O51: back from each phase by what a step can do to the port, and forward as the next phase is
defined, but for an accepted word. -/
theorem commandsAndResponsesAlternate : Obligations.CommandsAndResponsesAlternate := by
  unfold Obligations.CommandsAndResponsesAlternate
  intro s t h
  refine ⟨fun r => busy_or_responding_of_step_responding h, fun r => busy_or_accepted_of_step_busy h,
    recovering_or_taken_of_step_recovering h, phase_before_step_ready h, fun e es he hr => ?_⟩
  have hnext {p : Port} (hp : s.port = p) (hno : p = .ready → e.cmdValid = false) :
      t.port = nextPhase e.rspReady e.done p := by
    subst hp
    exact eq_of_next h (step_of_no_accept he hr hno) ▸ rfl
  refine ⟨fun r hp => hnext hp nofun, fun r hp htaken => ?_, fun r hp htaken => ?_,
    fun hp => hnext hp nofun, fun hp => hnext hp nofun, fun hready hv => ?_,
    fun hready hv => hnext (cmdReady_eq_true.1 hready) fun _ => hv⟩
  · simpa [nextPhase, htaken] using hnext hp nofun
  · simpa [nextPhase, htaken] using hnext hp nofun
  · exact accept_port ((step_eq_accept he hr hv (cmdReady_eq_true.1 hready)).symm.trans h)

/-! ## A response that is not taken (R96, R98, R99) -/

/-- Settles O52: the handshake does not move while a valid response is not taken. -/
theorem untakenResponseStopsBlock : Obligations.UntakenResponseStopsBlock := by
  unfold Obligations.UntakenResponseStopsBlock
  intro s r hs es hp he hheld
  have hrun := run_of_handshake_stays s es (fun e hmem =>
    ⟨(hheld e hmem).1, fun u hu => handshake_responding_stays (hu.trans hp) (hheld e hmem).2⟩)
    (Nat.le_refl hs.length)
  rwa [← he, List.drop_length, List.nil_append] at hrun

theorem port_ne_ready_of_heldResponse {p : Port} {r : Response} (h : heldResponse p = some r) :
    p ≠ .ready := by
  rintro rfl
  nomatch h

/-- Where the host does not take it, the port holds the same response in its next phase. -/
theorem heldResponse_nextPhase_untaken (done : Bool) (p : Port) :
    heldResponse (nextPhase false done p) = heldResponse p := by
  cases p
  case busy r => cases done <;> rfl
  case recovering => cases done <;> rfl
  all_goals rfl

/-- A response that is not valid yet is held in the next phase whatever `rsp_ready` is. -/
theorem heldResponse_nextPhase_busy (rspReady done : Bool) (r : Response) :
    heldResponse (nextPhase rspReady done (.busy r)) = some r := by
  cases done <;> rfl

/-- Edges that do not take the response held change nothing but the phase, and it is held to the end. -/
theorem run_holds_untaken {s : State} {r : Response} (ws es : List Edge)
    (hs : heldResponse s.port = some r) (he : s.edges = ws ++ es)
    (hws : ∀ e ∈ ws, e.rst = false ∧ e.rspReady = false) :
    ∃ p, core.run ws.length s = .next { s with port := p, edges := es } ∧
      heldResponse p = some r := by
  induction ws generalizing s with
  | nil => exact ⟨s.port, by rw [← show s.edges = es from he]; rfl, hs⟩
  | cons e ws ih =>
    obtain ⟨⟨hr, hn⟩, hws⟩ := List.forall_mem_cons.1 hws
    have hstep := step_of_no_accept he hr fun hp => absurd hp (port_ne_ready_of_heldResponse hs)
    rw [hn] at hstep
    rw [List.length_cons, run_succ _ hstep]
    exact ih ((heldResponse_nextPhase_untaken e.done s.port).trans hs) rfl hws

/-- The same from a response not valid yet, where `rsp_ready` is free at the first edge. -/
theorem run_holds_busy {s : State} {r : Response} (ws es : List Edge) (hs : s.port = .busy r)
    (he : s.edges = ws ++ es) (hrst : ∀ e ∈ ws, e.rst = false)
    (hws : ∀ e ∈ ws.tail, e.rspReady = false) :
    ∃ p, core.run ws.length s = .next { s with port := p, edges := es } ∧
      heldResponse p = some r := by
  cases ws with
  | nil => exact run_holds_untaken [] es (by rw [hs]; rfl) he nofun
  | cons e ws =>
    obtain ⟨hr, hrst⟩ := List.forall_mem_cons.1 hrst
    have hstep := step_of_no_accept he hr fun hp => nomatch hs.symm.trans hp
    rw [hs] at hstep
    rw [List.length_cons, run_succ _ hstep]
    exact run_holds_untaken ws es (heldResponse_nextPhase_busy e.rspReady e.done r) rfl
      fun f hf => ⟨hrst f hf, hws f hf⟩

/-- The edge that accepts a word in a state R27 allows leaves a response in progress. -/
theorem step_accepts {s : State} {a : Edge} {es : List Edge} (hp : s.port = .ready)
    (he : s.edges = a :: es) (hr : a.rst = false) (hv : a.cmdValid = true) (htru : TruInv s.tru) :
    ∃ (t : State) (r : Response), step s = .next { t with edges := es } ∧ t.port = .busy r := by
  obtain ⟨t, h⟩ := step_answers htru
  have ha := (step_eq_accept he hr hv hp).symm.trans h
  obtain ⟨r, hbusy⟩ := accept_port ha
  exact ⟨t, r, (step_eq_accept he hr hv hp).trans (accept_with_edges ha es), hbusy⟩

/-- Settles O4: the response is in progress while the block waits, held until reset, and reset looks at no
register. -/
theorem resetWinsOverCommand : Obligations.ResetWinsOverCommand := by
  unfold Obligations.ResetWinsOverCommand
  intro s a e waits rest es hp he hra hv hwaits hrest huntaken htru hre
  obtain ⟨t, r, hacc, hbusy⟩ := step_accepts hp he hra hv htru
  have hwait := run_of_handshake_stays t (rest ++ e :: es) (fun f hf =>
    ⟨(hwaits f hf).1, fun u hu => handshake_busy_stays (hu.trans hbusy) (hwaits f hf).2⟩)
    (Nat.le_refl waits.length)
  rw [List.drop_length, List.nil_append] at hwait
  obtain ⟨p, hhold, hheld⟩ := run_holds_busy (s := { t with edges := rest ++ e :: es }) rest (e :: es)
    hbusy rfl hrest huntaken
  have hrun : core.run (waits.length + rest.length + 1) s =
      .next { t with port := p, edges := e :: es } := by
    rw [run_succ _ hacc, run_add _ hwait, hhold]
  exact ⟨_, _, hrun, ⟨r, hheld⟩, step_eq_reset rfl hre, rfl, rfl⟩

end Sys2Proof.Machine
end
